-- ==== Sys2Proof/Word.lean ====
section
/-!
DEFINITION. The two word types of the block: a byte ("a byte is 8 bits everywhere in this spec", 00_scope.md R6) and the
16-bit command operand (30_encoding.md R55). All values are unsigned (00_scope.md R10).
-/

namespace Sys2Proof

/-- A byte: 8 bits everywhere (R6). -/
abbrev Byte := BitVec 8

/-- A 16-bit command operand, a speed or an angle, unsigned, 0 to 65535 (R10, R55). -/
abbrev Half := BitVec 16

end Sys2Proof
end

