-- ==== Sys2Proof/Config.lean ====
section
/-!
DEFINITION. The implementation parameters of 00_scope.md section 4 as the fields of `Config`, with the constraints the spec
puts on them, this hardware's values, and the free values of the spec, which are constants without a body.
-/

namespace Sys2Proof

/-- The configuration fields that the spec asks a model to take as such (00_scope.md section 4, summary table). The two
proof fields are the constraints of R3 and R4, so that no other configuration can be built. -/
structure Config where
  /-- `N`: payload bytes per Command Record (R3). -/
  N : Nat
  /-- `CW = log2 C`: the width of each cursor in bits (R4). -/
  CW : Nat
  /-- `OVF_ADVANCE`: the write cursor advances on a dropped write (R5). -/
  ovfAdvance : Bool
  /-- `OPC_HALT` (R54). -/
  opcHalt : Byte
  /-- `OPC_ADJUST_SPEED` (R54). -/
  opcAdjustSpeed : Byte
  /-- `OPC_ADJUST_ANGLE` (R54). -/
  opcAdjustAngle : Byte
  /-- `OPC_LAUNCH` (R54). -/
  opcLaunch : Byte
  /-- `MOTOR_IDS`: the two motor identifiers HALT stops (R97). -/
  motorIds : Vector Byte 2
  /-- `N >= 3`: the Dispatcher reads payload bytes 0, 1 and 2 (R3). -/
  N_ge : 3 ≤ N
  /-- `CW >= 1`: there are at least two slots (R4). -/
  CW_pos : 1 ≤ CW
  deriving DecidableEq, Repr

/-- Parameter `C`: record slots in the queue's backing storage, a power of two by its form (R4). -/
abbrev Config.C (c : Config) : Nat := 2 ^ c.CW

/-- `MASK = C - 1`: the index mask (R4). -/
abbrev Config.MASK (c : Config) : Nat := c.C - 1

/-- `IDXW = ceil (log2 (N + 1))`: the width of the receive index (R6), which is `floor (log2 N) + 1` for `N >= 1`. -/
abbrev Config.IDXW (c : Config) : Nat := Nat.log2 c.N + 1

/-- `RECW = 8 (N + 1)`: the width of a record in bits (R6). -/
abbrev Config.RECW (c : Config) : Nat := 8 * (c.N + 1)

/-- The four opcode values must be pairwise distinct (R54). -/
def Config.valid (c : Config) : Bool :=
  [c.opcHalt, c.opcAdjustSpeed, c.opcAdjustAngle, c.opcLaunch].Nodup

/-- The Dispatcher reads `rec[0]` to `rec[3]`, which every record has (R3). -/
theorem Config.index_le_three (c : Config) {k : Nat} (h : k ≤ 3) : k < c.N + 1 :=
  Nat.lt_succ_of_le (Nat.le_trans h c.N_ge)

/-- FREE VALUE. The power-on byte of `rx_buf[k]`, part of `MEM_INIT` (R7, R25; log 3). -/
opaque Config.rxBufInit : Nat → Byte

/-- FREE VALUE. The power-on byte of `q_mem` at a byte address, part of `MEM_INIT` (R7, R25; log 3). -/
opaque Config.memInit : Nat → Byte

/-- FREE VALUE. The first motor identifier of `MOTOR_IDS` (R97; log 7). -/
opaque Config.motorIdA : Byte

/-- FREE VALUE. The second motor identifier of `MOTOR_IDS` (R97; log 7). -/
opaque Config.motorIdB : Byte

/-- FREE VALUE. Whether a HALT calls its two motors in the listed order or in the other (R97; log 7), applied to the
draw counter. -/
opaque Config.haltOrder : Nat → Bool

/-- This hardware: `N = 5` (R3), `C = 32` (R4), `OVF_ADVANCE = true` (R5), the opcode values of R54, and two motor
identifiers left open (R97). -/
def Config.thisHardware : Config where
  N := 5
  CW := 5
  ovfAdvance := true
  opcHalt := 0x00
  opcAdjustSpeed := 0x02
  opcAdjustAngle := 0x03
  opcLaunch := 0x04
  motorIds := #v[Config.motorIdA, Config.motorIdB]
  N_ge := by decide
  CW_pos := by decide

/-- FREE VALUE. `deq_data` in a cycle with `deq_valid = 0` (R48, R92; log 10), applied to the draw counter. -/
opaque Config.deqDataOpen : Nat → BitVec Config.thisHardware.RECW

end Sys2Proof
end

