-- ==== Sys2Proof/Syntax.lean ====
section
/-!
DEFINITION. Records and the one inductive of instructions, a constructor for each row of `spec/opcode_table.json`.
A command carries the payload bytes it does not use as a list, whose length `Instr.wf` ties to the parameter `N`.
The rows on the 12-bit input vector are not exclusive (30_encoding.md R49): a constructor carries every bit its row
leaves open, so that one instruction is one whole cycle (log 15).
-/

namespace Sys2Proof

/-- A Command Record: `N + 1` bytes, `rec[0]` the opcode, `rec[k]` payload byte `k - 1` (R8, R44). -/
abbrev Record (N : Nat) := Vector Byte (N + 1)

/-- The instructions: the block's operations (R49) and the commands a record carries (R53). -/
inductive Instr where
  /-- RESET (R85): `rst = 1`; `ignored` is `in[10:0]`. -/
  | reset (ignored : BitVec 11)
  /-- RXBYTE (R59): `rx_valid = 1`, byte `b`; `deqReq` and `rxIdle` say whether TRYDEQUEUE and IDLE are selected in the
  same cycle (R87 to R89). -/
  | rxbyte (deqReq rxIdle : Bool) (b : Byte)
  /-- IDLE (R60) without a byte; `deqReq` says whether TRYDEQUEUE is selected too; `ignored` is `rx_data`. -/
  | idle (deqReq : Bool) (ignored : Byte)
  /-- TRYDEQUEUE (R70) alone; `ignored` is `rx_data`. -/
  | trydequeue (ignored : Byte)
  /-- NOP (R86): nothing selected; `ignored` is `rx_data`. -/
  | nop (ignored : Byte)
  /-- ENQUEUE (R69), internal: performed inside RXBYTE when a frame completes; no encoding of its own. Its operand is a
  record of this hardware's queue. -/
  | enqueue (rec : Record Config.thisHardware.N)
  /-- HALT (R96); `ignored` is `rec[1..N]`. -/
  | halt (ignored : List Byte)
  /-- ADJUST_SPEED (R98); `ignored` is `rec[4..N]`. -/
  | adjustSpeed (motor : Byte) (speed : Half) (ignored : List Byte)
  /-- ADJUST_ANGLE (R99); `ignored` is `rec[4..N]`. -/
  | adjustAngle (servo : Byte) (angle : Half) (ignored : List Byte)
  /-- LAUNCH (R100); `ignored` is `rec[2..N]`. -/
  | launch (reps : Byte) (ignored : List Byte)
  /-- A record whose opcode is none of the four (R56, R101); `ignored` is `rec[1..N]`. -/
  | unrecognized (opcode : Byte) (ignored : List Byte)
  deriving DecidableEq, Repr

/-- The `format` column of `spec/opcode_table.json`. -/
inductive Format where
  | inputVector12
  | internal
  | record48
  deriving DecidableEq, Repr

/-- The format of each row. -/
def Instr.format : Instr → Format
  | .reset _ => .inputVector12
  | .rxbyte _ _ _ => .inputVector12
  | .idle _ _ => .inputVector12
  | .trydequeue _ => .inputVector12
  | .nop _ => .inputVector12
  | .enqueue _ => .internal
  | .halt _ => .record48
  | .adjustSpeed _ _ _ => .record48
  | .adjustAngle _ _ _ => .record48
  | .launch _ _ => .record48
  | .unrecognized _ _ => .record48

end Sys2Proof
end

