-- ==== Sys2Proof/Machine/State.lean ====
section
/-!
DEFINITION. The state as plain data: the block's five fields (10_state.md R15), its output port (30_encoding.md R48), and
the model's own fields for the environment and the consumer, which 00_scope.md R12 puts outside the block. Faults,
refusals and the power-on state.
-/

namespace Sys2Proof.Machine

/-- `q_mem` as written since power-on: (byte address, byte) cells, addresses strictly rising; byte `k` of slot `a` stands
at address `(N + 1) a + k` (log 18). An unlisted address holds no written byte; what it reads as is `Memory.read`. -/
abbrev Memory := List Host.Cell

/-- The state of a block with parameters `N` and `CW` (R3, R4): "exactly these five fields, and nothing else" (R15). -/
structure Block (N CW : Nat) where
  /-- `rx_index`: how many bytes of the current frame have been captured, 0 to N (R18). -/
  rxIndex : Fin (N + 1)
  /-- `rx_buf`: the in-progress record (R16). -/
  rxBuf : Record N
  /-- `wr`: the write cursor (R19). -/
  wr : BitVec CW
  /-- `rd`: the read cursor (R19). -/
  rd : BitVec CW
  /-- `q_mem`: the queue's backing storage (R17). -/
  qMem : Memory
  deriving DecidableEq, Repr

/-- A call the consumer issues to an actuator; its result is not kept (R96 to R100, R102). -/
inductive Call where
  /-- `SetMotorSpeed(motorId, speedValue)` (R98). -/
  | setMotorSpeed (motor : Byte) (speed : Half)
  /-- `SetServoAngle(servoId, angleValue)` (R99). -/
  | setServoAngle (servo : Byte) (angle : Half)
  /-- `RunFireSequence(count)` (R100). -/
  | runFireSequence (count : Byte)
  deriving DecidableEq, Repr

/-- Where the consumer stands in its main loop (R94, R103; log 12, log 13). -/
inductive Consumer where
  /-- Between iterations: it may request a dequeue in any cycle. -/
  | polling
  /-- A dequeue returned `rec`, which this iteration dispatches next. -/
  | holding (rec : Record Config.thisHardware.N)
  /-- Inside the blocking call `RunFireSequence(reps)`, which lasts until the next cycle with `deq_req = 1` and `rst = 0`
  (log 13). -/
  | firing (reps : Byte)
  deriving DecidableEq, Repr

/-- The machine of this hardware: the block, its output port, the environment's inputs still to come, and the consumer. -/
structure State where
  /-- The block's five state fields (R15). -/
  block : Block Config.thisHardware.N Config.thisHardware.CW
  /-- The output ports in the last cycle: `some d` is `deq_valid = 1` with `deq_data = d`, `none` is `deq_valid = 0`
  (R48, R92). -/
  deqOut : Option (BitVec Config.thisHardware.RECW)
  /-- The input vectors of the cycles to come, the next first (R12, R47; log 2). -/
  inputs : List (BitVec 12)
  /-- The consumer's place in its main loop (R94). -/
  consumer : Consumer
  /-- The actuator calls issued so far, oldest first (R96 to R100; log 14). -/
  calls : List Call
  /-- The draw counter to which free values are applied (log 10). -/
  draws : Nat
  deriving DecidableEq, Repr

/-- No operation of the block or of its consumer faults: "A model has no fault outcome" (60_exceptions.md R105). There is
no constructor, so nobody raises one, and a claim that nothing faults is the spec's own (safe). -/
inductive Fault where
  deriving DecidableEq, Repr

/-- No meaning and no step of this model answers with a refusal (R71, R105, R115); the one constructor is the host's. -/
inductive Refusal where
  /-- The host's name for an instruction without a meaning: raised by nobody here (safe). -/
  | notModelled (mnemonic : String)
  deriving DecidableEq, Repr

/-- `rx_buf` at power-on: the free values of `MEM_INIT` (R7, R25; log 3). -/
def powerOnRxBuf (N : Nat) : Record N := Vector.ofFn fun k => Config.rxBufInit k.val

/-- The block at power-on: `rx_index`, `wr` and `rd` are 0 (R24, R117), no memory byte has been written (R25). -/
def Block.powerOn (N CW : Nat) : Block N CW where
  rxIndex := 0
  rxBuf := powerOnRxBuf N
  wr := 0
  rd := 0
  qMem := []

/-- The power-on state: the block's, and `deq_valid = 0` (R117); the environment has presented nothing and the consumer has
issued nothing (log 2, 12, 14). -/
def State.reset : State where
  block := Block.powerOn Config.thisHardware.N Config.thisHardware.CW
  deqOut := none
  inputs := []
  consumer := .polling
  calls := []
  draws := 0

end Sys2Proof.Machine
end

