-- ==== Sys2Proof/Machine/Flags.lean ====
section
/-!
DEFINITION. The derived predicates of 10_state.md R21. The block stores no flag; these are functions of the stored cursors.
-/

namespace Sys2Proof.Machine

/-- The one update ever applied to a cursor, `(cursor + 1) & MASK`: in a `CW`-bit register the mask is implicit (R72). -/
def nextCursor {CW : Nat} (x : BitVec CW) : BitVec CW := x + 1

/-- `count(s) = (wr - rd) mod C`: the number of records held (R21, R73). -/
def Block.count {N CW : Nat} (s : Block N CW) : Nat := (s.wr - s.rd).toNat

/-- `empty(s)`: `wr == rd` (R21). -/
def Block.empty {N CW : Nat} (s : Block N CW) : Bool := s.wr == s.rd

/-- `full(s)`: `((wr + 1) & MASK) == rd` (R21). -/
def Block.full {N CW : Nat} (s : Block N CW) : Bool := nextCursor s.wr == s.rd

/-- The byte in hand would be byte `N` of its frame: `rx_index == N` (R59). -/
def Block.completing {N CW : Nat} (s : Block N CW) : Bool := s.rxIndex == Fin.last N

/-- The output port `deq_valid` (R48, R92). -/
def State.deqValid (s : State) : Bool := s.deqOut.isSome

/-- The output port `deq_data`: unspecified, a free value, while `deq_valid = 0` (R48, R92; log 10). -/
def State.deqData (s : State) : BitVec Config.thisHardware.RECW := s.deqOut.getD (Config.deqDataOpen s.draws)

end Sys2Proof.Machine
end

