-- ==== Sys2Proof/Machine/Operands.lean ====
section
/-!
DEFINITION. Operand forms: the fields of the input vector (30_encoding.md R47, R50), the bytes and 16-bit fields of a
record (R53, R55), and the packing of a record on the output port (20_memory.md R33).
-/

namespace Sys2Proof.Machine

/-- The 12-bit input vector of one cycle, `{rst, deq_req, rx_idle, rx_valid, rx_data}` (R47). -/
abbrev InputVector := BitVec 12

/-- `rst = in[11]` (R47). -/
def InputVector.rst (w : InputVector) : Bool := w.getLsbD 11

/-- `deq_req = in[10]` (R47). -/
def InputVector.deqReq (w : InputVector) : Bool := w.getLsbD 10

/-- `rx_idle = in[9]` (R47). -/
def InputVector.rxIdle (w : InputVector) : Bool := w.getLsbD 9

/-- `rx_valid = in[8]` (R47). -/
def InputVector.rxValid (w : InputVector) : Bool := w.getLsbD 8

/-- `rx_data = in[7:0]`, taken as it is (R47, R50). -/
def InputVector.rxData (w : InputVector) : Byte := w.extractLsb' 0 8

/-- The eleven bits that RESET ignores, `in[10:0]` (R85). -/
def InputVector.belowRst (w : InputVector) : BitVec 11 := w.extractLsb' 0 11

/-- The vector with the given fields (R47). -/
def InputVector.ofFields (rst deqReq rxIdle rxValid : Bool) (rxData : Byte) : InputVector :=
  BitVec.ofBool rst ++ BitVec.ofBool deqReq ++ BitVec.ofBool rxIdle ++ BitVec.ofBool rxValid ++ rxData

/-- The byte captured in a cycle, if `rx_valid` is 1; with `rx_valid = 0` the data bits are ignored (R51). -/
def InputVector.byte? (w : InputVector) : Option Byte :=
  if InputVector.rxValid w then some (InputVector.rxData w) else none

/-- A big-endian 16-bit field: the first byte is the high one (R32, R55). -/
def be16 (hi lo : Byte) : Half := hi ++ lo

/-- The high byte of a 16-bit field (R32). -/
def highByte (h : Half) : Byte := h.extractLsb' 8 8

/-- The low byte of a 16-bit field (R32). -/
def lowByte (h : Half) : Byte := h.extractLsb' 0 8

/-- The number whose base-256 digits are the given bytes, the first the most significant. -/
def beNat (bs : List Byte) : Nat := bs.foldl (fun acc b => 256 * acc + b.toNat) 0

/-- The record as it stands on `deq_data`: first-received byte most significant (R33). -/
def pack {N : Nat} (rec : Record N) : BitVec (8 * (N + 1)) := BitVec.ofNat (8 * (N + 1)) (beNat rec.toList)

/-- The record that a `deq_data` carries: `rec[k] = deq_data[8 (N - k) + 7 : 8 (N - k)]` (R33). -/
def unpack {N : Nat} (d : BitVec (8 * (N + 1))) : Record N := Vector.ofFn fun k => d.extractLsb' (8 * (N - k.val)) 8

/-- The record whose bytes are the given list, if it has `N + 1` of them (R44). -/
def recordOf (N : Nat) (bs : List Byte) : Option (Record N) :=
  if h : bs.length = N + 1 then some ⟨bs.toArray, by simp [h]⟩ else none

/-- The selector or count of a command: `payload[0] = rec[1]` (R53, R55). -/
def Operand.selector (c : Config) (rec : Record c.N) : Byte := rec[1]'(c.index_le_three (by decide))

/-- The speed or angle of a command: `{payload[1], payload[2]} = 256 rec[2] + rec[3]` (R55). -/
def Operand.value16 (c : Config) (rec : Record c.N) : Half :=
  be16 (rec[2]'(c.index_le_three (by decide))) (rec[3]'(c.index_le_three (by decide)))

/-- The bytes of a record from byte `k` on, which a command that reads the first `k` does not use (R53, R101). -/
def Operand.unusedFrom {N : Nat} (k : Nat) (rec : Record N) : List Byte := rec.toList.drop k

end Sys2Proof.Machine
end

