-- ==== Sys2Proof/Machine/Ops.lean ====
section
/-!
DEFINITION. The operations that the meanings share: the memory (20_memory.md), the named updates of the block and of the
machine, the two sides of a cycle (42_system_and_step.md R87), and the consumer's calls. No operation raises an exception
(60_exceptions.md R105) and there is no trap entry or return (R111, R112), so there is no exception operation.
-/

namespace Sys2Proof.Machine

variable {N CW : Nat}

/-! ### Memory -/

/-- The byte address of byte `k` of slot `slot` (log 18). -/
def cellAddr (N : Nat) (slot : BitVec CW) (k : Nat) : Nat := (N + 1) * slot.toNat + k

/-- The byte last written at an address since power-on, `none` if there is none (R25). -/
def Memory.written : Memory → Nat → Option Byte
  | [], _ => none
  | (x, u) :: m, a => if x = a then some u else Memory.written m a

/-- What an address reads as: the byte last written there, or its power-on content, a free value (R7, R25; log 3). -/
def Memory.read (m : Memory) (a : Nat) : Byte := (Memory.written m a).getD (Config.memInit a)

/-- Write one byte, keeping the addresses strictly rising. -/
def Memory.write : Memory → Nat → Byte → Memory
  | [], a, v => [(a, v)]
  | (x, u) :: m, a, v =>
    if a < x then (a, v) :: (x, u) :: m
    else if a = x then (a, v) :: m
    else (x, u) :: Memory.write m a v

/-- Write bytes at consecutive addresses. -/
def Memory.writeBytes : Memory → Nat → List Byte → Memory
  | m, _, [] => m
  | m, a, b :: bs => Memory.writeBytes (Memory.write m a b) (a + 1) bs

/-- `MemRead(a, N+1)`: the record held in slot `a`, whole (R9, R34, R36). -/
def Memory.readSlot (N : Nat) (m : Memory) (slot : BitVec CW) : Record N :=
  Vector.ofFn fun k => Memory.read m (cellAddr N slot k.val)

/-- `MemWrite(a, N+1, rec)`: replace the whole of slot `a` (R9, R34, R36). -/
def Memory.writeSlot (m : Memory) (slot : BitVec CW) (rec : Record N) : Memory :=
  Memory.writeBytes m (cellAddr N slot 0) rec.toList

/-- Every cell's address is at least `lo`, and the addresses rise strictly. -/
def Memory.risesFrom : Nat → Memory → Bool
  | _, [] => true
  | lo, (x, _) :: m => decide (lo ≤ x) && Memory.risesFrom (x + 1) m

/-- The canonical form: addresses strictly rising, each the address of a byte of one of the `C` slots (R28, R29). No
listed cell equals what an unlisted address reads as through `Memory.written`, since that is `none`. -/
def Memory.wf (N CW : Nat) (m : Memory) : Bool :=
  Memory.risesFrom 0 m && m.all fun cell => decide (cell.1 < (N + 1) * 2 ^ CW)

/-! ### Named updates of the block -/

/-- Set the receive index. -/
def Block.setIndex (s : Block N CW) (i : Fin (N + 1)) : Block N CW := { s with rxIndex := i }

/-- Replace the in-progress record. -/
def Block.setBuf (s : Block N CW) (rec : Record N) : Block N CW := { s with rxBuf := rec }

/-- Set the write cursor. -/
def Block.setWr (s : Block N CW) (x : BitVec CW) : Block N CW := { s with wr := x }

/-- Set the read cursor. -/
def Block.setRd (s : Block N CW) (x : BitVec CW) : Block N CW := { s with rd := x }

/-- Replace the memory. -/
def Block.setMem (s : Block N CW) (m : Memory) : Block N CW := { s with qMem := m }

/-! ### The block's operations -/

/-- `rx_buf` after byte `b` is stored at `rx_index` (R59, R34 (a)). -/
def Block.bufWith (s : Block N CW) (b : Byte) : Record N := s.rxBuf.set s.rxIndex.val b s.rxIndex.isLt

/-- ENQUEUE (R69): write the record at the write cursor and advance it, unless the queue is full; then drop the record,
and advance the cursor all the same if `OVF_ADVANCE`. -/
def Block.enqueue (c : Config) (rec : Record c.N) (s : Block c.N c.CW) : Block c.N c.CW :=
  if s.full then
    if c.ovfAdvance then s.setWr (nextCursor s.wr) else s
  else (s.setMem (Memory.writeSlot s.qMem s.wr rec)).setWr (nextCursor s.wr)

/-- The record that a captured byte hands to ENQUEUE: the buffer with byte `N` in place, if the frame completes (R59,
R61). -/
def Block.handedOver (s : Block N CW) (b : Byte) : Option (Record N) :=
  if s.completing then some (s.bufWith b) else none

/-- RXBYTE (R59): store the byte; at byte `N` return the index to 0 and hand the record to ENQUEUE, else advance the
index. -/
def Block.rxByte (c : Config) (b : Byte) (s : Block c.N c.CW) : Block c.N c.CW :=
  match s.handedOver b with
  | some rec => ((s.setBuf (s.bufWith b)).setIndex 0).enqueue c rec
  | none => (s.setBuf (s.bufWith b)).setIndex (s.rxIndex + 1)

/-- IDLE (R60): the index returns to 0, nothing else is written. -/
def Block.idle (s : Block N CW) : Block N CW := s.setIndex 0

/-- RESET (R85): the control state returns to 0; `rx_buf` and `q_mem` are not written. -/
def Block.reset (s : Block N CW) : Block N CW := ((s.setIndex 0).setWr 0).setRd 0

/-- The record held in a slot of `q_mem` (R17, R28). -/
def Block.slot (s : Block N CW) (a : BitVec CW) : Record N := Memory.readSlot N s.qMem a

/-- The result of TRYDEQUEUE in a state: the record at the read cursor, or `none` if the queue is empty (R70). -/
def Block.head? (s : Block N CW) : Option (Record N) := if s.empty then none else some (s.slot s.rd)

/-- The read cursor after TRYDEQUEUE: advanced on success only (R70). -/
def Block.rdAfter (s : Block N CW) : BitVec CW := if s.empty then s.rd else nextCursor s.rd

/-- The producer side of a cycle: the byte first, then the idle-line event (R87, R88). -/
def Block.producerSide (c : Config) (rxIdle : Bool) (byte : Option Byte) (s : Block c.N c.CW) : Block c.N c.CW :=
  let captured := match byte with
    | some b => s.rxByte c b
    | none => s
  if rxIdle then captured.idle else captured

/-- The record the consumer side of a cycle returns (R70, R87). -/
def Block.returned (deqReq : Bool) (s : Block N CW) : Option (Record N) := if deqReq then s.head? else none

/-- One cycle without RESET: both sides read the pre-state; the consumer side writes only `rd` (R87, R89, R90). -/
def Block.cycle (c : Config) (deqReq rxIdle : Bool) (byte : Option Byte) (s : Block c.N c.CW) : Block c.N c.CW :=
  (s.producerSide c rxIdle byte).setRd (if deqReq then s.rdAfter else s.rd)

/-! ### Named updates of the machine -/

/-- Replace the block. -/
def State.setBlock (s : State) (b : Block Config.thisHardware.N Config.thisHardware.CW) : State := { s with block := b }

/-- Drive the output ports with a result: packed as R33 says, or `deq_valid = 0` (R92). -/
def State.setPort (s : State) (result : Option (Record Config.thisHardware.N)) : State :=
  { s with deqOut := result.map pack }

/-- Move the consumer. -/
def State.setConsumer (s : State) (k : Consumer) : State := { s with consumer := k }

/-- Issue actuator calls, in order; their results are discarded (R102). -/
def State.issue (s : State) (cs : List Call) : State := { s with calls := s.calls ++ cs }

/-- Advance the draw counter, so that the next free value is a fresh one (log 10). -/
def State.draw (s : State) : State := { s with draws := s.draws + 1 }

/-- Set the input vectors still to come. -/
def State.setInputs (s : State) (ws : List (BitVec 12)) : State := { s with inputs := ws }

/-- Where a dequeue request leaves the consumer: holding the record returned, or polling if there was none (R94). -/
def consumerAfter : Option (Record Config.thisHardware.N) → Consumer
  | some rec => .holding rec
  | none => .polling

/-- One cycle of the machine without RESET: the block's cycle, its outputs, and the consumer's iteration if it requested
a dequeue (R87, R92, R94). -/
def State.portCycle (deqReq rxIdle : Bool) (byte : Option Byte) (s : State) : State :=
  let result := s.block.returned deqReq
  let after := (s.setBlock (s.block.cycle Config.thisHardware deqReq rxIdle byte)).setPort result
  (after.setConsumer (if deqReq then consumerAfter result else s.consumer)).draw

/-- One cycle of RESET: `deq_valid = 0`, no byte captured, no dequeue performed (R85). The consumer is outside the block and
keeps its place; in particular a `deq_req` beside `rst`, which performs no dequeue, does not end a fire sequence. Whether
the call has then returned the spec leaves open (R103): DESIGN CHOICE (log 13, log 19). -/
def State.resetCycle (s : State) : State := ((s.setBlock s.block.reset).setPort none).draw

/-- HALT's two calls, in an order the spec leaves open (R96, R97; log 7). -/
def haltCalls (c : Config) (swap : Bool) : List Call :=
  if swap then [.setMotorSpeed c.motorIds[1] 0, .setMotorSpeed c.motorIds[0] 0]
  else [.setMotorSpeed c.motorIds[0] 0, .setMotorSpeed c.motorIds[1] 0]

end Sys2Proof.Machine
end

