-- ==== Sys2Proof/Machine/CommandQueue.lean ====
section
/-!
DEFINITION. The Command Queue's operations, ENQUEUE and TRYDEQUEUE (41_command_queue.md).
-/

namespace Sys2Proof.Machine

/-- ENQUEUE (R69), the internal operation on its own: the cycle, its ports and its agents are RXBYTE's, so only the block
changes (log 16). -/
def execEnqueue (rec : Record Config.thisHardware.N) (s : State) : Host.Outcome State Fault Refusal :=
  .next (s.setBlock (s.block.enqueue Config.thisHardware rec))

/-- TRYDEQUEUE (R70) alone in its cycle; `rx_data` is ignored (R51). -/
def execTrydequeue (_ignored : Byte) (s : State) : Host.Outcome State Fault Refusal :=
  .next (s.portCycle true false none)

/-- The internal operation that an instruction performs in a state: ENQUEUE of the completed record, when it captures byte
`N` of a frame (R49, R61). -/
def enqueueWithin (s : State) : Instr → Option Instr
  | .rxbyte _ _ b => (s.block.handedOver b).map Instr.enqueue
  | .reset _ => none
  | .idle _ _ => none
  | .trydequeue _ => none
  | .nop _ => none
  | .enqueue _ => none
  | .halt _ => none
  | .adjustSpeed _ _ _ => none
  | .adjustAngle _ _ _ => none
  | .launch _ _ => none
  | .unrecognized _ _ => none

end Sys2Proof.Machine
end

