-- ==== Sys2Proof/Machine/Dispatcher.lean ====
section
/-!
DEFINITION. The consumer's commands (43_dispatcher_context.md): calls to the actuators, no effect on the block (R93). A
call's result is discarded (R102).
-/

namespace Sys2Proof.Machine

/-- HALT (R96): `SetMotorSpeed(m, 0)` once for each motor of `MOTOR_IDS`, in an order left open (R97; log 7). -/
def execHalt (_ignored : List Byte) (s : State) : Host.Outcome State Fault Refusal :=
  .next ((s.issue (haltCalls Config.thisHardware (Config.haltOrder s.draws))).draw)

/-- ADJUST_SPEED (R98): `SetMotorSpeed(motor, speed)` exactly once; the selector is not checked. -/
def execAdjustSpeed (motor : Byte) (speed : Half) (_ignored : List Byte) (s : State) :
    Host.Outcome State Fault Refusal :=
  .next (s.issue [.setMotorSpeed motor speed])

/-- ADJUST_ANGLE (R99): `SetServoAngle(servo, angle)` exactly once; the selector is not checked. -/
def execAdjustAngle (servo : Byte) (angle : Half) (_ignored : List Byte) (s : State) :
    Host.Outcome State Fault Refusal :=
  .next (s.issue [.setServoAngle servo angle])

/-- LAUNCH (R100): `RunFireSequence(reps)` exactly once; the consumer is inside that call until it next requests a dequeue
(R103; log 13). -/
def execLaunch (reps : Byte) (_ignored : List Byte) (s : State) : Host.Outcome State Fault Refusal :=
  .next ((s.issue [.runFireSequence reps]).setConsumer (.firing reps))

/-- An unrecognized opcode (R101): the record has been consumed; no call and no error. -/
def execUnrecognized (_opcode : Byte) (_ignored : List Byte) (s : State) : Host.Outcome State Fault Refusal :=
  .next s

end Sys2Proof.Machine
end

