-- ==== Sys2Proof/Machine/FrameAssembler.lean ====
section
/-!
DEFINITION. The Frame Assembler's operations, RXBYTE and IDLE (40_frame_assembler.md), each with the operations its input
vector selects beside it (42_system_and_step.md R87).
-/

namespace Sys2Proof.Machine

/-- RXBYTE (R59), with IDLE after it (R88) and TRYDEQUEUE beside it (R89) where the vector selects them. -/
def execRxbyte (deqReq rxIdle : Bool) (b : Byte) (s : State) : Host.Outcome State Fault Refusal :=
  .next (s.portCycle deqReq rxIdle (some b))

/-- IDLE (R60), with TRYDEQUEUE beside it where the vector selects it; `rx_data` is ignored (R51). -/
def execIdle (deqReq : Bool) (_ignored : Byte) (s : State) : Host.Outcome State Fault Refusal :=
  .next (s.portCycle deqReq true none)

end Sys2Proof.Machine
end

