-- ==== Sys2Proof/Machine/System.lean ====
section
/-!
DEFINITION. The system operations, RESET and NOP (42_system_and_step.md R85, R86).
-/

namespace Sys2Proof.Machine

/-- RESET (R85): overrides every other input of its cycle; the environment and the consumer are not the block's (log 19). -/
def execReset (_ignored : BitVec 11) (s : State) : Host.Outcome State Fault Refusal :=
  .next s.resetCycle

/-- NOP (R86): a cycle in which nothing is selected; the block is unchanged and `deq_valid = 0`. -/
def execNop (_ignored : Byte) (s : State) : Host.Outcome State Fault Refusal :=
  .next (s.portCycle false false none)

end Sys2Proof.Machine
end

