-- ==== Sys2Proof/Machine/Dispatch.lean ====
section
/-!
DEFINITION. One arm per constructor of `Instr`, each one direct call of its meaning.
-/

namespace Sys2Proof.Machine

/-- The meaning of an instruction in a state. -/
def exec (i : Instr) (s : State) : Host.Outcome State Fault Refusal :=
  match i with
  | .reset ignored => Sys2Proof.Machine.execReset ignored s
  | .rxbyte deqReq rxIdle b => Sys2Proof.Machine.execRxbyte deqReq rxIdle b s
  | .idle deqReq ignored => Sys2Proof.Machine.execIdle deqReq ignored s
  | .trydequeue ignored => Sys2Proof.Machine.execTrydequeue ignored s
  | .nop ignored => Sys2Proof.Machine.execNop ignored s
  | .enqueue rec => Sys2Proof.Machine.execEnqueue rec s
  | .halt ignored => Sys2Proof.Machine.execHalt ignored s
  | .adjustSpeed motor speed ignored => Sys2Proof.Machine.execAdjustSpeed motor speed ignored s
  | .adjustAngle servo angle ignored => Sys2Proof.Machine.execAdjustAngle servo angle ignored s
  | .launch reps ignored => Sys2Proof.Machine.execLaunch reps ignored s
  | .unrecognized opcode ignored => Sys2Proof.Machine.execUnrecognized opcode ignored s

end Sys2Proof.Machine
end

