-- ==== Sys2Proof/WellFormed.lean ====
section
/-!
DEFINITION. Well-formedness of an instruction under a configuration. The operand types hold the widths of the input vector
and of the 16-bit fields. A command's record has `N + 1` bytes, so the payload bytes it does not use are as many as its row
leaves (30_encoding.md R44, R53); the catch-all row UNRECOGNIZED stands only for opcode bytes other than the four (R56).
-/

namespace Sys2Proof

/-- `op` is none of the four command opcodes (R56). -/
def Config.unrecognizedOpcode (c : Config) (op : Byte) : Bool :=
  op != c.opcHalt && op != c.opcAdjustSpeed && op != c.opcAdjustAngle && op != c.opcLaunch

/-- The instruction is one that its row of the table admits. -/
def Instr.wf (c : Config) : Instr → Bool
  | .reset _ => true
  | .rxbyte _ _ _ => true
  | .idle _ _ => true
  | .trydequeue _ => true
  | .nop _ => true
  | .enqueue _ => true
  | .halt ignored => ignored.length == c.N
  | .adjustSpeed _ _ ignored => ignored.length == c.N - 3
  | .adjustAngle _ _ ignored => ignored.length == c.N - 3
  | .launch _ ignored => ignored.length == c.N - 1
  | .unrecognized op ignored => c.unrecognizedOpcode op && ignored.length == c.N

end Sys2Proof
end

