-- ==== Sys2Proof/Decode.lean ====
section
/-!
DEFINITION. The decoder and the encoder: the input vector selects the block's operations (30_encoding.md R47, R49), the
opcode byte of a record selects a command (43_dispatcher_context.md R95). Both are total on their words; a number that is
no word of the hardware, or a byte list that is no record, is rejected by name. The encoder follows from the same tables.
-/

namespace Sys2Proof

open Sys2Proof.Machine

/-- What is decoded: an input vector at the block's ports (R47) or a record in the consumer's hands (R94). -/
inductive Code (N : Nat) where
  | input (w : BitVec 12)
  | record (rec : Record N)
  deriving DecidableEq, Repr

/-- Why bits that were presented are no word of the hardware. -/
inductive DecodeError where
  /-- A number that does not fit the twelve input bits of R47. -/
  | notAnInputVector
  /-- A list of bytes, or a number, that is not one record of `N + 1` bytes (R44, R57). -/
  | notARecord
  /-- A width that neither format of the table has. -/
  | noSuchFormat
  deriving DecidableEq, Repr

/-- The operations that an input vector selects, as one instruction (R49, R87; order RESET, RXBYTE, IDLE, TRYDEQUEUE,
NOP, log 15). -/
def decodeInput (w : BitVec 12) : Instr :=
  if InputVector.rst w then .reset (InputVector.belowRst w)
  else if InputVector.rxValid w then
    .rxbyte (InputVector.deqReq w) (InputVector.rxIdle w) (InputVector.rxData w)
  else if InputVector.rxIdle w then .idle (InputVector.deqReq w) (InputVector.rxData w)
  else if InputVector.deqReq w then .trydequeue (InputVector.rxData w)
  else .nop (InputVector.rxData w)

/-- `Dispatch` routes on the opcode byte alone (R95); every other opcode is UNRECOGNIZED (R56). -/
def decodeRecord (c : Config) (rec : Record c.N) : Instr :=
  if rec[0] = c.opcHalt then .halt (Operand.unusedFrom 1 rec)
  else if rec[0] = c.opcAdjustSpeed then
    .adjustSpeed (Operand.selector c rec) (Operand.value16 c rec) (Operand.unusedFrom 4 rec)
  else if rec[0] = c.opcAdjustAngle then
    .adjustAngle (Operand.selector c rec) (Operand.value16 c rec) (Operand.unusedFrom 4 rec)
  else if rec[0] = c.opcLaunch then .launch (Operand.selector c rec) (Operand.unusedFrom 2 rec)
  else .unrecognized rec[0] (Operand.unusedFrom 1 rec)

/-- The instruction of a code. -/
def decode (c : Config) : Code c.N → Instr
  | .input w => decodeInput w
  | .record rec => decodeRecord c rec

/-- A number at the input ports: it must fit the twelve bits of R47. -/
def decodeInputNumber (w : Nat) : Except DecodeError Instr :=
  if w < 2 ^ 12 then .ok (decodeInput (BitVec.ofNat 12 w)) else .error .notAnInputVector

/-- A list of bytes in the order received: it must be one whole record (R44, R57). -/
def decodeRecordBytes (c : Config) (bs : List Byte) : Except DecodeError Instr :=
  match recordOf c.N bs with
  | some rec => .ok (decodeRecord c rec)
  | none => .error .notARecord

/-- The instruction of a word of the table: 12 bits (16 in whole bytes) for an input vector, `RECW` for a packed record,
whose bits the table numbers as R33 packs them, the opcode highest (log 17). -/
def decodeWord (c : Config) (nbits w : Nat) : Except DecodeError Instr :=
  if nbits = 12 ∨ nbits = 16 then decodeInputNumber w
  else if nbits = c.RECW then
    if w < 2 ^ c.RECW then decodeRecordBytes c (unpack (N := c.N) (BitVec.ofNat c.RECW w)).toList
    else .error .notARecord
  else .error .noSuchFormat

/-- The instruction this hardware's decoder reads from a word of `spec/opcode_table.json`. -/
def decodeTableWord (nbits w : Nat) : Option Instr :=
  match decodeWord Config.thisHardware nbits w with
  | .ok i => some i
  | .error _ => none

/-- The code of an instruction, from the tables of R47, R49 and R53. ENQUEUE has no encoding of its own (R69), and a
command whose payload does not fill a record has none (R44). -/
def encode (c : Config) : Instr → Option (Code c.N)
  | .reset ign => some (.input (1#1 ++ ign))
  | .rxbyte dq id b => some (.input (InputVector.ofFields false dq id true b))
  | .idle dq d => some (.input (InputVector.ofFields false dq true false d))
  | .trydequeue d => some (.input (InputVector.ofFields false true false false d))
  | .nop d => some (.input (InputVector.ofFields false false false false d))
  | .enqueue _ => none
  | .halt p => (recordOf c.N (c.opcHalt :: p)).map Code.record
  | .adjustSpeed m v p => (recordOf c.N (c.opcAdjustSpeed :: m :: highByte v :: lowByte v :: p)).map Code.record
  | .adjustAngle sv v p => (recordOf c.N (c.opcAdjustAngle :: sv :: highByte v :: lowByte v :: p)).map Code.record
  | .launch r p => (recordOf c.N (c.opcLaunch :: r :: p)).map Code.record
  | .unrecognized op p => (recordOf c.N (op :: p)).map Code.record

/-- The word of a code as the table numbers it, with its width in bits (R33, R47). -/
def Code.tableWord {N : Nat} : Code N → Nat × Nat
  | .input w => (12, w.toNat)
  | .record rec => (8 * (N + 1), (pack rec).toNat)

/-- The `mask` and `match` columns of an instruction's row in `spec/opcode_table.json`, for this hardware's opcodes. -/
def Instr.tableRow : Instr → Nat × Nat
  | .reset _ => (0x800, 0x800)
  | .rxbyte _ _ _ => (0x900, 0x100)
  | .idle _ _ => (0xA00, 0x200)
  | .trydequeue _ => (0xC00, 0x400)
  | .nop _ => (0xF00, 0x000)
  | .enqueue _ => (0x900, 0x100)
  | .halt _ => (0xFF0000000000, 0x000000000000)
  | .adjustSpeed _ _ _ => (0xFF0000000000, 0x020000000000)
  | .adjustAngle _ _ _ => (0xFF0000000000, 0x030000000000)
  | .launch _ _ => (0xFF0000000000, 0x040000000000)
  | .unrecognized _ _ => (0x000000000000, 0x000000000000)

end Sys2Proof
end

