-- ==== Sys2Proof/Machine/Fetch.lean ====
section
/-!
DEFINITION. What the next step runs, and how it is taken. The block has no program counter and fetches no instruction
(10_state.md R20): a cycle runs the input vector the environment presents (42_system_and_step.md R87), and the consumer
dispatches the record it holds before its next cycle (43_dispatcher_context.md R94; log 12).
-/

namespace Sys2Proof.Machine

/-- The vector a cycle sees: the next of the list, or `0x000`, nothing selected, when the environment presents nothing
(R86; log 2). -/
def State.nextVector (s : State) : BitVec 12 := s.inputs.headD 0

/-- The code the next step runs. -/
def State.fetch (s : State) : Code Config.thisHardware.N :=
  match s.consumer with
  | .holding rec => .record rec
  | .polling => .input s.nextVector
  | .firing _ => .input s.nextVector

/-- The state with that code taken: the record leaves the consumer's hands, or the vector leaves the list. -/
def State.take (s : State) : State :=
  match s.consumer with
  | .holding _ => s.setConsumer .polling
  | .polling => s.setInputs s.inputs.tail
  | .firing _ => s.setInputs s.inputs.tail

/-- The state with an input vector placed first in the list; a record in the consumer's hands would be run before it, so
it is put aside. -/
def State.placeInput (s : State) (w : BitVec 12) : State :=
  let s' := s.setInputs (w :: s.inputs)
  match s.consumer with
  | .holding _ => s'.setConsumer .polling
  | .polling => s'
  | .firing _ => s'

/-- The state with a word of the table placed where the next step fetches: an input vector first in the list, or a packed
record in the consumer's hands (R33). A number that is no such word places nothing. -/
def State.placeTableWord (s : State) (nbits w : Nat) : State :=
  if nbits = 12 ∨ nbits = 16 then
    if w < 2 ^ 12 then s.placeInput (BitVec.ofNat 12 w) else s
  else if nbits = Config.thisHardware.RECW then
    if w < 2 ^ Config.thisHardware.RECW then
      s.setConsumer (.holding (unpack (BitVec.ofNat Config.thisHardware.RECW w)))
    else s
  else s

end Sys2Proof.Machine
end

