-- ==== Sys2Proof/Machine/Step.lean ====
section
/-!
DEFINITION. One step: the next input vector as one clock cycle of the block (42_system_and_step.md R87), or the record in
the consumer's hands as one dispatch (43_dispatcher_context.md R94). Every step answers a next state (60_exceptions.md R115).
-/

namespace Sys2Proof.Machine

/-- One step: take the code the machine runs next, decode it, and execute it. -/
def step (s : State) : Host.Outcome State Fault Refusal :=
  exec (decode Config.thisHardware s.fetch) s.take

/-- The state with a word of the opcode table placed where `step` fetches next (log 2, 17). -/
def State.withFetchWord (s : State) (nbits w : Nat) : State := s.placeTableWord nbits w

end Sys2Proof.Machine
end

