-- ==== Sys2Proof/Safety.lean ====
section
/-!
DEFINITION. The terms in which claims are made: the queue's contents, one cycle and runs of the block under any
configuration (42_system_and_step.md R87), what environments are assumed to do (00_scope.md R13), and the invariants.
-/

namespace Sys2Proof.Machine

variable {N CW : Nat}

/-! ### The queue as a list -/

/-- `Q(s)`: the records `q_mem[(rd + j) & MASK]`, `j = 0 .. count - 1`, oldest first (41_command_queue.md section 3). -/
def Block.contents (s : Block N CW) : List (Record N) :=
  (List.range s.count).map fun j => s.slot (s.rd + BitVec.ofNat CW j)

/-- The slot lies in the range `[rd, wr)` (R25). -/
def Block.inRange (s : Block N CW) (slot : BitVec CW) : Prop := (slot - s.rd).toNat < s.count

/-! ### One cycle of the block -/

/-- The block after one cycle with input vector `w` (R87). -/
def Block.onVector (c : Config) (w : InputVector) (s : Block c.N c.CW) : Block c.N c.CW :=
  if InputVector.rst w then s.reset
  else s.cycle c (InputVector.deqReq w) (InputVector.rxIdle w) (InputVector.byte? w)

/-- The record returned in that cycle: `deq_valid` and `deq_data` (R92). -/
def Block.outputOn (w : InputVector) (s : Block N CW) : Option (Record N) :=
  if InputVector.rst w then none else s.returned (InputVector.deqReq w)

/-- The record handed to ENQUEUE in that cycle (R59, R61). -/
def Block.handedOn (w : InputVector) (s : Block N CW) : Option (Record N) :=
  if InputVector.rst w then none else (InputVector.byte? w).bind s.handedOver

/-- The record that ENQUEUE accepts in that cycle: the one handed over, unless the queue is full (R69). -/
def Block.acceptedOn (w : InputVector) (s : Block N CW) : Option (Record N) := if s.full then none else s.handedOn w

/-- An ENQUEUE meets a full pre-state in that cycle (R107). -/
def Block.overflowsOn (w : InputVector) (s : Block N CW) : Bool := (s.handedOn w).isSome && s.full

/-! ### Runs of the block -/

/-- The block after the cycles of a list of input vectors. -/
def Block.run (c : Config) : List InputVector → Block c.N c.CW → Block c.N c.CW
  | [], s => s
  | w :: ws, s => Block.run c ws (s.onVector c w)

/-- The records returned in those cycles, in order. -/
def Block.outputs (c : Config) : List InputVector → Block c.N c.CW → List (Record c.N)
  | [], _ => []
  | w :: ws, s => (s.outputOn w).toList ++ Block.outputs c ws (s.onVector c w)

/-- The records handed to ENQUEUE in those cycles, in order. -/
def Block.handed (c : Config) : List InputVector → Block c.N c.CW → List (Record c.N)
  | [], _ => []
  | w :: ws, s => (s.handedOn w).toList ++ Block.handed c ws (s.onVector c w)

/-- The records accepted in those cycles, in order. -/
def Block.accepted (c : Config) : List InputVector → Block c.N c.CW → List (Record c.N)
  | [], _ => []
  | w :: ws, s => (s.acceptedOn w).toList ++ Block.accepted c ws (s.onVector c w)

/-- No ENQUEUE of those cycles meets a full pre-state: the premise R83 and R120 name. -/
def Block.neverOverflows (c : Config) : List InputVector → Block c.N c.CW → Bool
  | [], _ => true
  | w :: ws, s => !(s.overflowsOn w) && Block.neverOverflows c ws (s.onVector c w)

/-- No vector of the list asserts `rst`. -/
def noReset (ws : List InputVector) : Bool := ws.all fun w => !(InputVector.rst w)

/-- No vector of the list asserts `rx_idle`. -/
def noIdle (ws : List InputVector) : Bool := ws.all fun w => !(InputVector.rxIdle w)

/-- The bytes received in those cycles, in order (R46). -/
def bytesOf (ws : List InputVector) : List Byte := ws.filterMap InputVector.byte?

/-- The vector `RX b` (R58). -/
def vecRx (b : Byte) : InputVector := InputVector.ofFields false false false true b

/-- The vector `IDLE` (R58). -/
def vecIdle : InputVector := 0x200

/-- The vector `DEQ` (R58). -/
def vecDeq : InputVector := 0x400

/-! ### Runs of instructions -/

/-- Execute instructions one after another, stopping at the first fault or refusal. -/
def execAll : List Instr → State → Host.Outcome State Fault Refusal
  | [], s => .next s
  | i :: is, s =>
    match exec i s with
    | .next t => execAll is t
    | .fault r => .fault r
    | .refused r => .refused r

/-! ### Invariants -/

/-- The memory keeps its canonical form. -/
def State.wf (s : State) : Bool := Memory.wf Config.thisHardware.N Config.thisHardware.CW s.block.qMem

/-- Every slot has been written as a whole or not at all (R34, R36). -/
def Memory.wholeSlots (N CW : Nat) (m : Memory) : Prop :=
  ∀ (slot : BitVec CW) (j k : Nat), j ≤ N → k ≤ N →
    (Memory.written m (cellAddr N slot j)).isSome = (Memory.written m (cellAddr N slot k)).isSome

/-- A record in the consumer's hands is the one that the output port presented (R48, R94). -/
def State.handsMatchPort (s : State) : Prop :=
  ∀ rec : Record Config.thisHardware.N, s.consumer = .holding rec → s.deqOut = some (pack rec)

/-- The consumer is between dispatches: it holds no record. -/
def State.handsFree (s : State) : Prop := ∀ rec : Record Config.thisHardware.N, s.consumer ≠ .holding rec

/-- Two blocks that no consumer can tell apart: equal control state, the same captured bytes, the same records in the
range `[rd, wr)`; the residue may differ (R25, R26). -/
def Block.sameVisible (s t : Block N CW) : Prop :=
  s.rxIndex = t.rxIndex ∧ s.wr = t.wr ∧ s.rd = t.rd ∧
  (∀ k : Fin (N + 1), k < s.rxIndex → s.rxBuf[k] = t.rxBuf[k]) ∧
  (∀ slot, s.inRange slot → s.slot slot = t.slot slot)

/-! ### The consumer side of a cycle -/

/-- What a cycle's dequeue request, or its absence, does: on a non-empty pre-state the head is returned and the read cursor
advances by one modulo `C`, otherwise nothing is returned and the cursor stays (R70, R72, R92). -/
def ConsumerSide (deqReq : Bool) (s t : State) : Prop :=
  if deqReq = true ∧ s.block.wr ≠ s.block.rd then
    t.block.rd.toNat = (s.block.rd.toNat + 1) % Config.thisHardware.C ∧ t.deqValid = true ∧
    t.deqData = pack (s.block.slot s.block.rd)
  else t.block.rd = s.block.rd ∧ t.deqValid = false

/-! ### What a record makes the consumer call -/

/-- The call sequences that dispatching a record may issue (R95 to R101): one, but for HALT, whose two calls may come in
either order (R97). -/
def possibleCalls (c : Config) (rec : Record c.N) : List (List Call) :=
  let selector := rec[1]'(c.index_le_three (by decide))
  let value : Half := rec[2]'(c.index_le_three (by decide)) ++ rec[3]'(c.index_le_three (by decide))
  if rec[0] = c.opcHalt then [haltCalls c false, haltCalls c true]
  else if rec[0] = c.opcAdjustSpeed then [[.setMotorSpeed selector value]]
  else if rec[0] = c.opcAdjustAngle then [[.setServoAngle selector value]]
  else if rec[0] = c.opcLaunch then [[.runFireSequence selector]]
  else [[]]

end Sys2Proof.Machine
end

