-- ==== Sys2Proof/Certificates/Slice0/Obligations.lean ====
section
/-!
DEFINITION. The statements for the provers. Each docstring says which rule or section of spec/ the statement formalises; a
rule that the spec marks as its own inference ([derived: ...]) is cited by section only.
-/

open Sys2Proof Sys2Proof.Machine
open Sys2Proof.Config (thisHardware)

namespace Sys2Proof.Reference

/-- The pseudocode of 42_system_and_step.md R87, transcribed as one data path: every read is of the pre-state `s`, every
cursor is computed on numbers as `(cursor + 1) & MASK`. The first component is `s'`, the second is `deq_data`, present
when `deq_valid = 1`. -/
def step (c : Config) (s : Block c.N c.CW) (w : BitVec 12) : Block c.N c.CW × Option (BitVec c.RECW) :=
  if w.getLsbD 11 then ({ s with rxIndex := 0, wr := 0, rd := 0 }, none)
  else
    let deqReq := w.getLsbD 10
    let rxIdle := w.getLsbD 9
    let rxValid := w.getLsbD 8
    let b : Byte := w.extractLsb' 0 8
    let deqValid := deqReq && s.wr != s.rd
    let rd' := if deqValid then BitVec.ofNat c.CW ((s.rd.toNat + 1) &&& c.MASK) else s.rd
    let rxBuf' : Record c.N := if rxValid then s.rxBuf.set s.rxIndex.val b s.rxIndex.isLt else s.rxBuf
    let complete := rxValid && s.rxIndex.val == c.N
    let nxt := BitVec.ofNat c.CW ((s.wr.toNat + 1) &&& c.MASK)
    let room := nxt != s.rd
    let qMem' := if complete && room then Memory.writeSlot s.qMem s.wr rxBuf' else s.qMem
    let wr' := if complete && (room || c.ovfAdvance) then nxt else s.wr
    let rxIndex' : Fin (c.N + 1) :=
      if rxIdle || complete then 0 else if rxValid then s.rxIndex + 1 else s.rxIndex
    ({ rxIndex := rxIndex', rxBuf := rxBuf', wr := wr', rd := rd', qMem := qMem' },
      if deqValid then some (pack (Memory.readSlot c.N s.qMem s.rd)) else none)

end Sys2Proof.Reference

/-- Decode of encode is the identity on every well-formed instruction. Derived from 30_encoding.md section 2,
30_encoding.md section 3, 43_dispatcher_context.md section 1. -/
def Obligations.DecodeOfEncodeIsIdentity : Prop :=
  ∀ (c : Config) (i : Instr), c.valid = true → i.wf c = true →
    (i.format = .internal → encode c i = none) ∧
    (i.format ≠ .internal → ∃ code, encode c i = some code ∧ decode c code = i)

/-- Every input vector and every record decodes, and encodes back to itself. Derived from 30_encoding.md section 2,
43_dispatcher_context.md section 1. -/
def Obligations.EncodeOfDecodeIsIdentity : Prop :=
  ∀ (c : Config) (code : Code c.N), (decode c code).wf c = true ∧ encode c (decode c code) = some code

/-- The word of an instruction has its table row's match under its mask. Derived from 30_encoding.md section 2
(operations and their selection), 30_encoding.md section 3, opcode_table.json. -/
def Obligations.EncodedWordMatchesItsTableRow : Prop :=
  ∀ (i : Instr) (code : Code thisHardware.N), encode thisHardware i = some code →
    code.tableWord.2 &&& i.tableRow.1 = i.tableRow.2

/-- The table word of a well-formed instruction decodes to that instruction. Derived from 30_encoding.md section 2,
20_memory.md section 2 (output port packing). -/
def Obligations.TableWordDecodesToItsInstruction : Prop :=
  ∀ (i : Instr) (code : Code thisHardware.N), i.wf thisHardware = true → encode thisHardware i = some code →
    decodeTableWord code.tableWord.1 code.tableWord.2 = some i

/-- Words written out in the spec decode to the operations they stand for. Derived from 30_encoding.md section 2
(input vector) and section 4, 95_test_vectors.md part 1. -/
def Obligations.SpecWordsDecodeAsListed : Prop :=
  decodeTableWord 16 0x800 = some (.reset 0) ∧
  decodeTableWord 16 0x102 = some (.rxbyte false false 0x02) ∧
  decodeTableWord 16 0x5A7 = some (.rxbyte true false 0xA7) ∧
  decodeTableWord 16 0x306 = some (.rxbyte false true 0x06) ∧
  decodeTableWord 16 0x706 = some (.rxbyte true true 0x06) ∧
  decodeTableWord 16 0x200 = some (.idle false 0) ∧
  decodeTableWord 16 0x600 = some (.idle true 0) ∧
  decodeTableWord 16 0x400 = some (.trydequeue 0) ∧
  decodeTableWord 16 0x0A5 = some (.nop 0xA5) ∧
  decodeTableWord 48 0x000000000000 = some (.halt [0, 0, 0, 0, 0]) ∧
  decodeTableWord 48 0x020130000000 = some (.adjustSpeed 1 0x3000 [0, 0]) ∧
  decodeTableWord 48 0x03027FFF0000 = some (.adjustAngle 2 0x7FFF [0, 0]) ∧
  decodeTableWord 48 0x040300000000 = some (.launch 3 [0, 0, 0, 0]) ∧
  decodeTableWord 48 0x010000000000 = some (.unrecognized 0x01 [0, 0, 0, 0, 0])

/-- The output port carries the first-received byte most significant. Formalises R33. -/
def Obligations.PortPacksFirstByteHighest : Prop :=
  thisHardware.RECW = 48 ∧
  ∀ c : Config,
    (∀ (rec : Record c.N) (k : Fin (c.N + 1)), (pack rec).extractLsb' (8 * (c.N - k.val)) 8 = rec[k]) ∧
    (∀ rec : Record c.N, unpack (pack rec) = rec) ∧
    (∀ d : BitVec c.RECW, pack (unpack d) = d)

/-- The four command opcode values, pairwise distinct. Formalises R54. -/
def Obligations.OpcodeValuesOfThisHardware : Prop :=
  thisHardware.opcHalt = 0x00 ∧ thisHardware.opcAdjustSpeed = 0x02 ∧
  thisHardware.opcAdjustAngle = 0x03 ∧ thisHardware.opcLaunch = 0x04 ∧
  thisHardware.valid = true ∧
  ∀ op : Byte, thisHardware.unrecognizedOpcode op = true ↔ op = 0x01 ∨ 0x05 ≤ op

/-- A step executes the instruction decoded from what it fetches (the model's own step, log 2 and 12). Derived from
42_system_and_step.md section 2, 43_dispatcher_context.md section 1, 00_scope.md section 6. -/
def Obligations.StepRunsDecodedInstruction : Prop :=
  (∀ (s : State) (rec : Record thisHardware.N), s.consumer = .holding rec →
    step s = exec (decodeRecord thisHardware rec) { s with consumer := .polling }) ∧
  (∀ (s : State) (w : BitVec 12) (ws : List (BitVec 12)), s.handsFree → s.inputs = w :: ws →
    step s = exec (decodeInput w) { s with inputs := ws }) ∧
  (∀ s : State, s.handsFree → s.inputs = [] → step s = exec (decodeInput 0x000) s)

/-- A table word placed by withFetchWord is the next instruction executed (log 2, log 17). Derived from 30_encoding.md
section 2, 42_system_and_step.md section 2. -/
def Obligations.PlacedTableWordIsRunNext : Prop :=
  ∀ (s : State) (nbits w : Nat) (i : Instr), decodeTableWord nbits w = some i →
    ∃ u : State, step (s.withFetchWord nbits w) = exec i u ∧ u.handsFree ∧ u.block = s.block ∧
      u.deqOut = s.deqOut ∧ u.inputs = s.inputs ∧ u.calls = s.calls ∧ u.draws = s.draws

/-- No operation faults or refuses; every step answers a next state. Formalises R105. -/
def Obligations.EveryOperationCompletes : Prop :=
  (∀ (i : Instr) (s : State), ∃ t : State, exec i s = .next t) ∧ ∀ s : State, ∃ t : State, step s = .next t

/-- Executing what an input vector selects is the step function of the spec. Formalises R87. -/
def Obligations.CycleIsTheSpecStepFunction : Prop :=
  (∀ (c : Config) (w : BitVec 12) (s : Block c.N c.CW),
    (s.onVector c w, (s.outputOn w).map pack) = Sys2Proof.Reference.step c s w) ∧
  (∀ (w : BitVec 12) (s : State), ∃ t : State, exec (decodeInput w) s = .next t ∧
      (t.block, t.deqOut) = Sys2Proof.Reference.step thisHardware s.block w ∧ t.inputs = s.inputs ∧
      t.calls = s.calls)

/-- Executing an input vector is one cycle of the block; what it does to the consumer is the model's choice (log 12,
log 13, log 19). Derived from 42_system_and_step.md section 2, 43_dispatcher_context.md section 1,
43_dispatcher_context.md section 3. -/
def Obligations.ExecOfVectorIsBlockCycle : Prop :=
  ∀ (w : BitVec 12) (s : State), ∃ t : State, exec (decodeInput w) s = .next t ∧
    t.block = s.block.onVector thisHardware w ∧ t.deqOut = (s.block.outputOn w).map pack ∧
    t.consumer = (if InputVector.rst w = false ∧ InputVector.deqReq w = true then consumerAfter (s.block.outputOn w)
      else s.consumer) ∧
    t.inputs = s.inputs ∧ t.calls = s.calls

/-- deq_valid is 1 exactly on a dequeue request of a non-empty queue outside RESET. Formalises R92. -/
def Obligations.OutputsDependOnlyOnTheRequest : Prop :=
  (∀ (w : BitVec 12) (s : State), ∃ t : State, exec (decodeInput w) s = .next t ∧
    (t.deqValid = true ↔ InputVector.rst w = false ∧ InputVector.deqReq w = true ∧ s.block.wr ≠ s.block.rd) ∧
    (t.deqValid = true → t.deqData = pack (s.block.slot s.block.rd))) ∧
  (∀ (w w' : BitVec 12) (s t t' : State), InputVector.rst w = InputVector.rst w' →
    InputVector.deqReq w = InputVector.deqReq w' → exec (decodeInput w) s = .next t →
    exec (decodeInput w') s = .next t' → t.deqOut = t'.deqOut)

/-- The low eleven bits under RESET, and rx_data without rx_valid, have no effect. Derived from 30_encoding.md section
2 (legal input combinations). -/
def Obligations.IgnoredBitsHaveNoEffect : Prop :=
  (∀ (w w' : BitVec 12) (s : State), InputVector.rst w = true → InputVector.rst w' = true →
    exec (decodeInput w) s = exec (decodeInput w') s) ∧
  (∀ (w w' : BitVec 12) (s : State), InputVector.rxValid w = false →
    w.extractLsb' 8 4 = w'.extractLsb' 8 4 → exec (decodeInput w) s = exec (decodeInput w') s)

/-- RESET sets rx_index, wr and rd to 0, drives deq_valid = 0, and writes neither rx_buf nor q_mem. Formalises R85. -/
def Obligations.ResetReturnsControlStateToZero : Prop :=
  (∀ (ignored : BitVec 11) (s : State), ∃ t : State, exec (.reset ignored) s = .next t ∧
    t.block.rxIndex = 0 ∧ t.block.wr = 0 ∧ t.block.rd = 0 ∧ t.block.empty = true ∧
    t.block.rxBuf = s.block.rxBuf ∧ t.block.qMem = s.block.qMem ∧ t.deqValid = false ∧
    t.inputs = s.inputs ∧ t.calls = s.calls ∧
    t.block.rxIndex = State.reset.block.rxIndex ∧ t.block.wr = State.reset.block.wr ∧
    t.block.rd = State.reset.block.rd) ∧
  (∀ w : BitVec 12, w.getLsbD 11 = true → ∃ ignored, decodeInput w = .reset ignored)

/-- At power-on and after RESET rx_index, wr and rd are 0: no frame in progress, an empty queue. Formalises R24. -/
def Obligations.PowerOnControlStateIsZero : Prop :=
  State.reset.block.rxIndex = 0 ∧ State.reset.block.wr = 0 ∧ State.reset.block.rd = 0 ∧
  State.reset.block.empty = true ∧
  ∀ (ignored : BitVec 11) (s : State), ∃ t : State, exec (.reset ignored) s = .next t ∧
    t.block.rxIndex = 0 ∧ t.block.wr = 0 ∧ t.block.rd = 0 ∧ t.block.empty = true

/-- NOP leaves the block, the consumer, the inputs and the calls as they were, with deq_valid = 0. Derived from
42_system_and_step.md section 1. -/
def Obligations.NopLeavesTheMachineUnchanged : Prop :=
  ∀ (ignored : Byte) (s : State), ∃ t : State, exec (.nop ignored) s = .next t ∧ t.block = s.block ∧
    t.deqValid = false ∧ t.consumer = s.consumer ∧ t.inputs = s.inputs ∧ t.calls = s.calls

/-- NOP cycles inserted anywhere change neither the states reached nor any output. Formalises R86. -/
def Obligations.NopsMayBeInsertedAnywhere : Prop :=
  (∀ (ignored : Byte) (s : State), ∃ t : State, exec (.nop ignored) s = .next t ∧ t.block = s.block ∧
    t.deqValid = false) ∧
  (∀ (c : Config) (v : BitVec 12) (before after : List (BitVec 12)) (s : Block c.N c.CW), v.extractLsb' 8 4 = 0 →
    Block.run c (before ++ v :: after) s = Block.run c (before ++ after) s ∧
    Block.outputs c (before ++ v :: after) s = Block.outputs c (before ++ after) s)

/-- RXBYTE: the byte stored at rx_index, the index advanced, a completed frame handed to ENQUEUE; IDLE applied after
it. Formalises R59, R88. -/
def Obligations.RxbyteStoresByteAndCompletesFrames : Prop :=
  ∀ (deqReq rxIdle : Bool) (b : Byte) (s : State), ∃ t : State, exec (.rxbyte deqReq rxIdle b) s = .next t ∧
    ConsumerSide deqReq s t ∧ t.inputs = s.inputs ∧ t.calls = s.calls ∧
    (∀ k : Fin (thisHardware.N + 1), t.block.rxBuf[k] = if k = s.block.rxIndex then b else s.block.rxBuf[k]) ∧
    (s.block.rxIndex.val < thisHardware.N → t.block.wr = s.block.wr ∧ t.block.qMem = s.block.qMem ∧
      t.block.rxIndex.val = if rxIdle then 0 else s.block.rxIndex.val + 1) ∧
    (s.block.rxIndex.val = thisHardware.N → t.block.rxIndex = 0 ∧
      ∃ u : State, exec (.enqueue (s.block.rxBuf.set thisHardware.N b)) s = .next u ∧
        t.block.wr = u.block.wr ∧ t.block.qMem = u.block.qMem)

/-- IDLE sets rx_index to 0 and writes nothing else. Formalises R60. -/
def Obligations.IdleForcesIndexToZero : Prop :=
  (∀ (deqReq : Bool) (ignored : Byte) (s : State), ∃ t : State, exec (.idle deqReq ignored) s = .next t ∧
    ConsumerSide deqReq s t ∧ t.block.rxIndex = 0 ∧ t.block.rxBuf = s.block.rxBuf ∧ t.block.wr = s.block.wr ∧
    t.block.qMem = s.block.qMem ∧ t.inputs = s.inputs ∧ t.calls = s.calls) ∧
  (∀ (ignored : Byte) (s : State), s.block.rxIndex = 0 → ∃ t : State, exec (.idle false ignored) s = .next t ∧
    t.block = s.block)

/-- rx_buf is never cleared: only RXBYTE changes one byte of it. Formalises R67. -/
def Obligations.RxBufferChangedOnlyByRxbyte : Prop :=
  ∀ (i : Instr) (s : State), ∃ t : State, exec i s = .next t ∧
    ((∀ (deqReq rxIdle : Bool) (b : Byte), i ≠ .rxbyte deqReq rxIdle b) → t.block.rxBuf = s.block.rxBuf) ∧
    (∀ k : Fin (thisHardware.N + 1), k ≠ s.block.rxIndex → t.block.rxBuf[k] = s.block.rxBuf[k])

/-- Without IDLE or RESET, L bytes from a frame boundary hand over exactly L / 6 records, the aligned groups of six.
Derived from 40_frame_assembler.md section 2, 90_conflicts.md C6. -/
def Obligations.BytesFormRecordsByAlignedGroupsOfSix : Prop :=
  ∀ (c : Config) (ws : List (BitVec 12)) (s : Block c.N c.CW), noReset ws = true → noIdle ws = true → s.rxIndex = 0 →
    (Block.handed c ws s).length = (bytesOf ws).length / (c.N + 1) ∧
    (∀ (j : Nat) (hj : j < (Block.handed c ws s).length) (k : Fin (c.N + 1)),
      (bytesOf ws)[(c.N + 1) * j + k.val]? = some ((Block.handed c ws s)[j][k])) ∧
    (Block.run c ws s).rxIndex.val = (bytesOf ws).length % (c.N + 1) ∧
    (∀ k : Fin (c.N + 1), k.val < (bytesOf ws).length % (c.N + 1) →
      (bytesOf ws)[(c.N + 1) * ((bytesOf ws).length / (c.N + 1)) + k.val]? =
        some (Block.run c ws s).rxBuf[k])

/-- After any history, IDLE and a complete frame on a queue not full deliver that frame after the records ahead of it.
Derived from 60_exceptions.md section 4, 40_frame_assembler.md section 2. -/
def Obligations.FrameAfterIdleIsDelivered : Prop :=
  ∀ (c : Config) (rec : Record c.N) (s : Block c.N c.CW), s.full = false →
    (Block.run c (vecIdle :: rec.toList.map vecRx) s).contents = s.contents ++ [rec] ∧
    (Block.run c (vecIdle :: rec.toList.map vecRx) s).rxIndex = 0 ∧
    Block.outputs c (vecIdle :: rec.toList.map vecRx ++ List.replicate (s.count + 1) vecDeq) s =
      s.contents ++ [rec]

/-- ENQUEUE: written at wr unless that would bring wr onto rd, then dropped; wr advances either way on this hardware.
Formalises R69. -/
def Obligations.EnqueueAcceptsOrDrops : Prop :=
  (∀ (rec : Record thisHardware.N) (s : State), ∃ t : State, exec (.enqueue rec) s = .next t ∧
    ((s.block.wr.toNat + 1) &&& thisHardware.MASK ≠ s.block.rd.toNat →
      t.block.slot s.block.wr = rec ∧
      (∀ a : Nat, a < cellAddr thisHardware.N s.block.wr 0 ∨
          cellAddr thisHardware.N s.block.wr 0 + (thisHardware.N + 1) ≤ a →
        Memory.read t.block.qMem a = Memory.read s.block.qMem a) ∧
      t.block.wr.toNat = (s.block.wr.toNat + 1) &&& thisHardware.MASK) ∧
    ((s.block.wr.toNat + 1) &&& thisHardware.MASK = s.block.rd.toNat →
      t.block.qMem = s.block.qMem ∧ t.block.wr = s.block.rd) ∧
    t.block.rxIndex = s.block.rxIndex ∧ t.block.rxBuf = s.block.rxBuf ∧ t.block.rd = s.block.rd ∧
    t.deqOut = s.deqOut ∧ t.consumer = s.consumer ∧ t.inputs = s.inputs ∧ t.calls = s.calls) ∧
  (∀ (c : Config) (rec : Record c.N) (s : Block c.N c.CW),
    ((s.wr.toNat + 1) &&& c.MASK ≠ s.rd.toNat →
      (s.enqueue c rec).qMem = Memory.writeSlot s.qMem s.wr rec ∧
      (s.enqueue c rec).wr.toNat = (s.wr.toNat + 1) &&& c.MASK) ∧
    ((s.wr.toNat + 1) &&& c.MASK = s.rd.toNat →
      (s.enqueue c rec).qMem = s.qMem ∧ (s.enqueue c rec).wr = if c.ovfAdvance then s.rd else s.wr) ∧
    (s.enqueue c rec).rxIndex = s.rxIndex ∧ (s.enqueue c rec).rxBuf = s.rxBuf ∧ (s.enqueue c rec).rd = s.rd)

/-- TRYDEQUEUE: the record at rd and rd advanced if the queue is not empty, else none and nothing changed. Formalises
R70. -/
def Obligations.TrydequeueReturnsHead : Prop :=
  ∀ (ignored : Byte) (s : State), ∃ t : State, exec (.trydequeue ignored) s = .next t ∧ ConsumerSide true s t ∧
    t.block.rxIndex = s.block.rxIndex ∧ t.block.rxBuf = s.block.rxBuf ∧ t.block.wr = s.block.wr ∧
    t.block.qMem = s.block.qMem ∧ t.inputs = s.inputs ∧ t.calls = s.calls

/-- On an empty queue dequeues return none and change nothing until a record is accepted. Formalises R81. -/
def Obligations.TrydequeueOnEmptyIsIdempotent : Prop :=
  (∀ (ignored : Byte) (s : State), s.block.empty = true → ∃ t : State, exec (.trydequeue ignored) s = .next t ∧
    t.block = s.block ∧ t.deqValid = false) ∧
  (∀ (w : BitVec 12) (s : State), s.block.empty = true → ∃ t : State, exec (decodeInput w) s = .next t ∧
    t.deqValid = false) ∧
  (∀ (c : Config) (ws : List (BitVec 12)) (s : Block c.N c.CW), s.empty = true → Block.handed c ws s = [] →
    Block.outputs c ws s = [] ∧ (Block.run c ws s).empty = true ∧
    Block.run c ws s = Block.run c (ws.map (· &&& 0xBFF)) s)

/-- A dequeue does not erase: no operation writes a slot except an accepted ENQUEUE whose wr is that slot. Formalises
R82. -/
def Obligations.OnlyAcceptedEnqueueWritesASlot : Prop :=
  ∀ (i : Instr) (s t : State) (slot : BitVec thisHardware.CW), exec i s = .next t →
    t.block.slot slot ≠ s.block.slot slot →
    slot = s.block.wr ∧ s.block.full = false ∧
    (i = .enqueue (t.block.slot slot) ∨
      ∃ (deqReq rxIdle : Bool) (b : Byte), i = .rxbyte deqReq rxIdle b ∧ s.block.rxIndex = Fin.last thisHardware.N ∧
        t.block.slot slot = s.block.rxBuf.set thisHardware.N b)

/-- Every byte of q_mem outside the slot at wr reads as before, whatever instruction is executed. Derived from
20_memory.md section 1, 20_memory.md section 3. -/
def Obligations.StoresTouchOnlyTheSlotAtWr : Prop :=
  ∀ (i : Instr) (s : State), ∃ t : State, exec i s = .next t ∧
    (∀ a : Nat, a < cellAddr thisHardware.N s.block.wr 0 ∨
        cellAddr thisHardware.N s.block.wr 0 + (thisHardware.N + 1) ≤ a →
      Memory.read t.block.qMem a = Memory.read s.block.qMem a) ∧
    ((∀ rec : Record thisHardware.N, i ≠ .enqueue rec) → enqueueWithin s i = none → t.block.qMem = s.block.qMem)

/-- The only update of a cursor is (cursor + 1) & MASK, which is (cursor + 1) mod C. Formalises R72. -/
def Obligations.CursorsOnlyAdvanceByOneModuloC : Prop :=
  (∀ (c : Config) (x : BitVec c.CW), (nextCursor x).toNat = (x.toNat + 1) &&& c.MASK ∧
    (nextCursor x).toNat = (x.toNat + 1) % c.C) ∧
  (∀ (i : Instr) (s t : State), (∀ ignored : BitVec 11, i ≠ .reset ignored) → exec i s = .next t →
    (t.block.wr = s.block.wr ∨ t.block.wr = nextCursor s.block.wr) ∧
    (t.block.rd = s.block.rd ∨ t.block.rd = nextCursor s.block.rd))

/-- empty is count = 0, full is count = C - 1, and the count never exceeds C - 1. Derived from 10_state.md section 4,
41_command_queue.md section 2. -/
def Obligations.EmptyAndFullAreCounts : Prop :=
  ∀ (c : Config) (s : Block c.N c.CW), (s.empty = true ↔ s.count = 0) ∧ (s.full = true ↔ s.count = c.C - 1) ∧
    s.count ≤ c.C - 1 ∧ s.contents.length = s.count

/-- How one cycle changes the count, in every case and under both overflow policies. Derived from 41_command_queue.md
section 2. -/
def Obligations.CountFollowsAcceptAndDequeue : Prop :=
  ∀ (c : Config) (w : BitVec 12) (s : Block c.N c.CW), InputVector.rst w = false →
    (s.onVector c w).count =
      (s.count + ((s.handedOn w).isSome && (!s.full || c.ovfAdvance)).toNat + c.C - (s.outputOn w).isSome.toNat)
        % c.C

/-- From an empty queue 31 records are accepted and held in order; the 32nd empties the queue on this hardware.
Derived from 41_command_queue.md section 2, 41_command_queue.md section 3. -/
def Obligations.UsableCapacityIsOneLessThanSlots : Prop :=
  (∀ (recs : List (Record thisHardware.N)) (s : State), s.block.empty = true → recs.length ≤ thisHardware.C - 1 →
    ∃ t : State, execAll (recs.map Instr.enqueue) s = .next t ∧ t.block.contents = recs ∧
      t.block.count = recs.length ∧
      (recs.length = thisHardware.C - 1 → ∀ rec : Record thisHardware.N, ∃ u : State,
        exec (.enqueue rec) t = .next u ∧ u.block.empty = true ∧ u.block.qMem = t.block.qMem)) ∧
  (∀ (c : Config) (recs : List (Record c.N)) (s : Block c.N c.CW), s.empty = true → recs.length ≤ c.C - 1 →
    (recs.foldl (fun b rec => b.enqueue c rec) s).contents = recs ∧
    ((recs.foldl (fun b rec => b.enqueue c rec) s).full = true ↔ recs.length = c.C - 1))

/-- FIFO: what was held, then what was accepted, is what was returned, then what is still held. Derived from
41_command_queue.md section 3. -/
def Obligations.QueueIsFirstInFirstOut : Prop :=
  ∀ (c : Config) (ws : List (BitVec 12)) (s : Block c.N c.CW), noReset ws = true →
    (c.ovfAdvance = true → Block.neverOverflows c ws s = true) →
    s.contents ++ Block.accepted c ws s = Block.outputs c ws s ++ (Block.run c ws s).contents

/-- n dequeues in a row return the first n records of the contents and leave the rest. Derived from
41_command_queue.md section 3. -/
def Obligations.DrainReturnsContentsInOrder : Prop :=
  ∀ (c : Config) (n : Nat) (s : Block c.N c.CW),
    Block.outputs c (List.replicate n vecDeq) s = s.contents.take n ∧
    (Block.run c (List.replicate n vecDeq) s).contents = s.contents.drop n ∧
    { Block.run c (List.replicate n vecDeq) s with rd := s.rd } = s

/-- Overflow without a dequeue: nothing written, wr lands on rd, all records lost, the next dequeue returns none.
Derived from 41_command_queue.md section 3, 70_reset_and_hazards.md section 2. -/
def Obligations.OverflowAloneEmptiesTheQueue : Prop :=
  ∀ (rxIdle : Bool) (b ignored : Byte) (s : State), s.block.full = true → s.block.completing = true →
    ∃ t u : State, exec (.rxbyte false rxIdle b) s = .next t ∧ t.block.qMem = s.block.qMem ∧
      t.block.wr = s.block.rd ∧ t.block.rd = s.block.rd ∧ t.block.rxIndex = 0 ∧ t.block.contents = [] ∧
      s.block.contents.length = thisHardware.C - 1 ∧
      exec (.trydequeue ignored) t = .next u ∧ u.deqValid = false ∧ u.block = t.block

/-- Overflow with a dequeue in the same cycle: the queue stays full and ends in a stale record. Derived from
41_command_queue.md section 3, 70_reset_and_hazards.md section 2. -/
def Obligations.OverflowWithDequeueAdmitsStaleRecord : Prop :=
  ∀ (rxIdle : Bool) (b : Byte) (s : State), s.block.full = true → s.block.completing = true →
    ∃ t : State, exec (.rxbyte true rxIdle b) s = .next t ∧ t.deqValid = true ∧
      t.deqData = pack (s.block.slot s.block.rd) ∧ t.block.qMem = s.block.qMem ∧
      t.block.full = true ∧ t.block.count = thisHardware.C - 1 ∧
      t.block.contents = s.block.contents.tail ++ [s.block.slot s.block.wr]

/-- With OVF_ADVANCE = false a full queue keeps every unread record; only the newest is lost. Derived from
41_command_queue.md section 3. -/
def Obligations.OverflowWithoutAdvanceLosesOnlyTheNewest : Prop :=
  ∀ (c : Config) (w : BitVec 12) (s : Block c.N c.CW), c.ovfAdvance = false → s.overflowsOn w = true →
    (s.onVector c w).qMem = s.qMem ∧ (s.onVector c w).wr = s.wr ∧
    (InputVector.deqReq w = false → (s.onVector c w).contents = s.contents ∧ s.outputOn w = none) ∧
    (InputVector.deqReq w = true → (s.onVector c w).contents = s.contents.tail ∧ s.outputOn w = s.contents.head?)

/-- A byte and a dequeue in one cycle equal the two operations in either order, unless a frame completes on an empty
or full queue. Derived from 42_system_and_step.md section 2. -/
def Obligations.SameCycleEqualsEitherOrder : Prop :=
  ∀ (rxIdle : Bool) (b ignored : Byte) (s : State),
    (s.block.completing = true → s.block.empty = false ∧ s.block.full = false) →
    ∃ t u v u' v' : State, exec (.rxbyte true rxIdle b) s = .next t ∧
      exec (.rxbyte false rxIdle b) s = .next u ∧ exec (.trydequeue ignored) u = .next v ∧
      exec (.trydequeue ignored) s = .next u' ∧ exec (.rxbyte false rxIdle b) u' = .next v' ∧
      t.block = v.block ∧ t.block = v'.block ∧ t.deqOut = v.deqOut ∧ t.deqOut = u'.deqOut

/-- On an empty queue a dequeue in the completing cycle returns none; the record is there in the next cycle. Derived
from 42_system_and_step.md section 2, 20_memory.md section 4. -/
def Obligations.ArrivingRecordIsSeenNextCycle : Prop :=
  ∀ (rxIdle : Bool) (b ignored : Byte) (s : State), s.block.empty = true → s.block.completing = true →
    ∃ t u : State, exec (.rxbyte true rxIdle b) s = .next t ∧ t.deqValid = false ∧
      t.block.contents = [s.block.rxBuf.set thisHardware.N b] ∧
      exec (.trydequeue ignored) t = .next u ∧ u.deqValid = true ∧
      u.deqData = pack (s.block.rxBuf.set thisHardware.N b) ∧ u.block.empty = true

/-- Single writer: the read cursor follows the consumer alone, the other four fields the producer alone. Derived from
10_state.md section 5, 60_exceptions.md section 4, 42_system_and_step.md section 2. -/
def Obligations.EachSideWritesOnlyItsOwnFields : Prop :=
  ∀ (c : Config) (dq dq' id id' : Bool) (byte byte' : Option Byte) (s : Block c.N c.CW),
    (s.cycle c dq id byte).rd = (s.cycle c dq id' byte').rd ∧
    (s.cycle c dq id byte).rxIndex = (s.cycle c dq' id byte).rxIndex ∧
    (s.cycle c dq id byte).rxBuf = (s.cycle c dq' id byte).rxBuf ∧
    (s.cycle c dq id byte).wr = (s.cycle c dq' id byte).wr ∧
    (s.cycle c dq id byte).qMem = (s.cycle c dq' id byte).qMem ∧
    (s.cycle c false id byte).rd = s.rd ∧ { s.cycle c dq false none with rd := s.rd } = s

/-- The initial content and residue of rx_buf and q_mem are observed only through the stale-record corner. Derived
from 10_state.md section 6, 10_state.md section 7, 41_command_queue.md section 3. -/
def Obligations.ResidueIsNeverObserved : Prop :=
  ∀ (c : Config) (w : BitVec 12) (s t : Block c.N c.CW), s.sameVisible t →
    (c.ovfAdvance = true → s.overflowsOn w = true → InputVector.deqReq w = false) →
    s.outputOn w = t.outputOn w ∧ s.handedOn w = t.handedOn w ∧ (s.onVector c w).sameVisible (t.onVector c w)

/-- Behaviour does not depend on where the cursors stand in the ring; k alternations end at k mod C. Formalises R84.
-/
def Obligations.RingPositionIsInvisible : Prop :=
  (∀ recs : List (Record thisHardware.N), ∃ t : State,
    execAll (recs.flatMap fun rec => [.enqueue rec, .trydequeue 0]) State.reset = .next t ∧
    t.block.wr.toNat = recs.length % thisHardware.C ∧ t.block.rd.toNat = recs.length % thisHardware.C) ∧
  (∀ (c : Config) (ws : List (BitVec 12)) (k : BitVec c.CW) (s t : Block c.N c.CW), noReset ws = true →
    t.rxIndex = s.rxIndex → t.rxBuf = s.rxBuf → t.wr = s.wr + k → t.rd = s.rd + k →
    (∀ slot, t.slot (slot + k) = s.slot slot) →
    Block.outputs c ws t = Block.outputs c ws s)

/-- HALT calls SetMotorSpeed(m, 0) once for each of the two motors, in either order, and nothing else. Formalises R96.
-/
def Obligations.HaltStopsBothMotors : Prop :=
  (∀ rec : Record thisHardware.N, rec[0] = 0x00 → ∃ ignored, decodeRecord thisHardware rec = .halt ignored) ∧
  (∀ (ignored : List Byte) (s : State), ∃ t : State, exec (.halt ignored) s = .next t ∧
    (t.calls = s.calls ++ [.setMotorSpeed thisHardware.motorIds[0] 0,
        .setMotorSpeed thisHardware.motorIds[1] 0] ∨
      t.calls = s.calls ++ [.setMotorSpeed thisHardware.motorIds[1] 0,
        .setMotorSpeed thisHardware.motorIds[0] 0]) ∧
    t.block = s.block ∧ t.deqOut = s.deqOut ∧ t.inputs = s.inputs ∧ t.consumer = s.consumer)

/-- ADJUST_SPEED: one call with the selector and the big-endian 16-bit value, and nothing else. Formalises R98. -/
def Obligations.AdjustSpeedCallsSetMotorSpeedOnce : Prop :=
  (∀ (sel : Byte) (v : Half) (ignored : List Byte) (s : State), ∃ t : State,
    exec (.adjustSpeed sel v ignored) s = .next t ∧ t.calls = s.calls ++ [.setMotorSpeed sel v] ∧
      t.block = s.block ∧ t.deqOut = s.deqOut ∧ t.inputs = s.inputs ∧ t.consumer = s.consumer) ∧
  (∀ rec : Record thisHardware.N, rec[0] = 0x02 → ∃ (v : Half) (ignored : List Byte),
    decodeRecord thisHardware rec = .adjustSpeed rec[1] v ignored ∧
      v.toNat = 256 * rec[2].toNat + rec[3].toNat)

/-- ADJUST_ANGLE: one call with the selector and the big-endian 16-bit value, and nothing else. Formalises R99. -/
def Obligations.AdjustAngleCallsSetServoAngleOnce : Prop :=
  (∀ (sel : Byte) (v : Half) (ignored : List Byte) (s : State), ∃ t : State,
    exec (.adjustAngle sel v ignored) s = .next t ∧ t.calls = s.calls ++ [.setServoAngle sel v] ∧
      t.block = s.block ∧ t.deqOut = s.deqOut ∧ t.inputs = s.inputs ∧ t.consumer = s.consumer) ∧
  (∀ rec : Record thisHardware.N, rec[0] = 0x03 → ∃ (v : Half) (ignored : List Byte),
    decodeRecord thisHardware rec = .adjustAngle rec[1] v ignored ∧
      v.toNat = 256 * rec[2].toNat + rec[3].toNat)

/-- LAUNCH calls RunFireSequence(rec[1]) exactly once, and nothing else. Formalises R100. -/
def Obligations.LaunchRunsTheFireSequenceOnce : Prop :=
  ∀ (reps : Byte) (ignored : List Byte) (s : State),
    (∀ rec : Record thisHardware.N, rec[0] = 0x04 → rec[1] = reps →
      ∃ p, decodeRecord thisHardware rec = .launch reps p) ∧
    ∃ t : State, exec (.launch reps ignored) s = .next t ∧ t.calls = s.calls ++ [.runFireSequence reps] ∧
      t.block = s.block ∧ t.deqOut = s.deqOut ∧ t.inputs = s.inputs

/-- A record whose opcode is none of the four causes no call and changes nothing. Formalises R101. -/
def Obligations.UnrecognizedOpcodeDoesNothing : Prop :=
  (∀ rec : Record thisHardware.N, rec[0] ≠ 0x00 → rec[0] ≠ 0x02 → rec[0] ≠ 0x03 → rec[0] ≠ 0x04 →
    ∃ ignored, decodeRecord thisHardware rec = .unrecognized rec[0] ignored) ∧
  (∀ (opcode : Byte) (ignored : List Byte) (s : State), exec (.unrecognized opcode ignored) s = .next s)

/-- No command writes any field of the block, the ports or the inputs. Derived from 43_dispatcher_context.md section
1, 60_exceptions.md section 4. -/
def Obligations.CommandsLeaveTheBlockAlone : Prop :=
  ∀ (i : Instr) (s : State), i.format = .record48 → ∃ t : State, exec i s = .next t ∧ t.block = s.block ∧
    t.deqOut = s.deqOut ∧ t.inputs = s.inputs ∧ ∃ cs, t.calls = s.calls ++ cs ∧ cs.length ≤ 2

/-- Dispatch routes on the opcode byte alone. Formalises R95. -/
def Obligations.DispatchRoutesOnOpcodeAlone : Prop :=
  (∀ (rec : Record thisHardware.N) (s : State), ∃ (t : State) (cs : List Call),
    exec (decodeRecord thisHardware rec) s = .next t ∧ cs ∈ possibleCalls thisHardware rec ∧
      t.calls = s.calls ++ cs ∧ t.block = s.block ∧ t.deqOut = s.deqOut ∧ t.inputs = s.inputs) ∧
  (∀ rec rec' : Record thisHardware.N, rec[0] = rec'[0] →
    (decodeRecord thisHardware rec).tableRow = (decodeRecord thisHardware rec').tableRow)

/-- A record in the consumer's hands is dispatched by the next step, once (the model's order, log 12). Derived from
43_dispatcher_context.md section 1. -/
def Obligations.HeldRecordIsDispatchedByTheNextStep : Prop :=
  ∀ (s : State) (rec : Record thisHardware.N), s.consumer = .holding rec →
    ∃ (t : State) (cs : List Call), step s = .next t ∧ cs ∈ possibleCalls thisHardware rec ∧
      t.calls = s.calls ++ cs ∧ t.handsFree ∧ t.block = s.block ∧ t.deqOut = s.deqOut ∧ t.inputs = s.inputs

/-- The machine run on an input sequence ends in the block's run, each record returned dispatched once, in order.
Derived from 43_dispatcher_context.md section 1, 43_dispatcher_context.md section 3. -/
def Obligations.RecordsAreDispatchedInOrderEachOnce : Prop :=
  ∀ (s : State), s.handsFree →
    ∃ (t : State) (css : List (List Call)),
      Host.Core.run Sys2Proof.core
        (s.inputs.length + (Block.outputs thisHardware s.inputs s.block).length) s = .next t ∧
      t.inputs = [] ∧ t.handsFree ∧ t.block = Block.run thisHardware s.inputs s.block ∧
      t.calls = s.calls ++ css.flatten ∧
      List.Forall₂ (fun rec cs => cs ∈ possibleCalls thisHardware rec)
        (Block.outputs thisHardware s.inputs s.block) css

/-- After LAUNCH the consumer stays in the call and dequeues nothing for as many cycles as the run has no request.
Derived from 43_dispatcher_context.md section 3. -/
def Obligations.FireSequenceSuspendsDequeuing : Prop :=
  ∀ (reps : Byte) (ignored : List Byte) (s : State), noReset s.inputs = true →
    (s.inputs.all fun w => !(InputVector.deqReq w)) = true →
    ∃ t u : State, exec (.launch reps ignored) s = .next t ∧ t.consumer = .firing reps ∧
      Host.Core.run Sys2Proof.core s.inputs.length t = .next u ∧ u.consumer = .firing reps ∧
      u.block.rd = s.block.rd ∧ u.calls = t.calls ∧ u.block = Block.run thisHardware s.inputs s.block

/-- Every step keeps the memory in canonical form, within the 32 slots (the form is the model's, log 18). Derived from
20_memory.md section 1, 10_state.md section 2. -/
def Obligations.EveryStepKeepsMemoryCanonical : Prop :=
  ∀ s t : State, s.wf = true → step s = .next t → t.wf = true

/-- The power-on state has canonical memory, whole slots, and no record in the consumer's hands (log 3, log 12, log
18). Derived from 10_state.md section 6, 70_reset_and_hazards.md section 1. -/
def Obligations.PowerOnStateMeetsInvariants : Prop :=
  State.reset.wf = true ∧ Memory.wholeSlots thisHardware.N thisHardware.CW State.reset.block.qMem ∧
    State.reset.handsMatchPort ∧ State.reset.handsFree

/-- Every step keeps each slot written since power-on as a whole or not at all (in the model's memory, log 3 and log
18). Derived from 20_memory.md section 3. -/
def Obligations.EveryStepKeepsSlotsWhole : Prop :=
  ∀ s t : State, Memory.wholeSlots thisHardware.N thisHardware.CW s.block.qMem → step s = .next t →
    Memory.wholeSlots thisHardware.N thisHardware.CW t.block.qMem

/-- Every step keeps the record in the consumer's hands equal to the one the output port presented (log 11, log 12).
Derived from 30_encoding.md section 2 (output ports), 43_dispatcher_context.md section 1. -/
def Obligations.EveryStepKeepsHandsMatchingPort : Prop :=
  ∀ s t : State, s.handsMatchPort → step s = .next t → t.handsMatchPort
end

