-- ==== Sys2Proof/Laws/State.lean ====
section
/-!
SUPPORT. One lemma per field per named update of the block and of the machine, and what a shared cycle leaves in each field,
so that no later proof unfolds a record update.
-/

namespace Sys2Proof.Machine

variable {N CW : Nat}

/-! ### Updates of the block -/

@[simp] theorem Block.setIndex_rxIndex (s : Block N CW) (i : Fin (N + 1)) : (s.setIndex i).rxIndex = i := rfl
@[simp] theorem Block.setIndex_rxBuf (s : Block N CW) (i : Fin (N + 1)) : (s.setIndex i).rxBuf = s.rxBuf := rfl
@[simp] theorem Block.setIndex_wr (s : Block N CW) (i : Fin (N + 1)) : (s.setIndex i).wr = s.wr := rfl
@[simp] theorem Block.setIndex_rd (s : Block N CW) (i : Fin (N + 1)) : (s.setIndex i).rd = s.rd := rfl
@[simp] theorem Block.setIndex_qMem (s : Block N CW) (i : Fin (N + 1)) : (s.setIndex i).qMem = s.qMem := rfl

@[simp] theorem Block.setBuf_rxIndex (s : Block N CW) (rec : Record N) : (s.setBuf rec).rxIndex = s.rxIndex := rfl
@[simp] theorem Block.setBuf_rxBuf (s : Block N CW) (rec : Record N) : (s.setBuf rec).rxBuf = rec := rfl
@[simp] theorem Block.setBuf_wr (s : Block N CW) (rec : Record N) : (s.setBuf rec).wr = s.wr := rfl
@[simp] theorem Block.setBuf_rd (s : Block N CW) (rec : Record N) : (s.setBuf rec).rd = s.rd := rfl
@[simp] theorem Block.setBuf_qMem (s : Block N CW) (rec : Record N) : (s.setBuf rec).qMem = s.qMem := rfl

@[simp] theorem Block.setWr_rxIndex (s : Block N CW) (x : BitVec CW) : (s.setWr x).rxIndex = s.rxIndex := rfl
@[simp] theorem Block.setWr_rxBuf (s : Block N CW) (x : BitVec CW) : (s.setWr x).rxBuf = s.rxBuf := rfl
@[simp] theorem Block.setWr_wr (s : Block N CW) (x : BitVec CW) : (s.setWr x).wr = x := rfl
@[simp] theorem Block.setWr_rd (s : Block N CW) (x : BitVec CW) : (s.setWr x).rd = s.rd := rfl
@[simp] theorem Block.setWr_qMem (s : Block N CW) (x : BitVec CW) : (s.setWr x).qMem = s.qMem := rfl

@[simp] theorem Block.setRd_rxIndex (s : Block N CW) (x : BitVec CW) : (s.setRd x).rxIndex = s.rxIndex := rfl
@[simp] theorem Block.setRd_rxBuf (s : Block N CW) (x : BitVec CW) : (s.setRd x).rxBuf = s.rxBuf := rfl
@[simp] theorem Block.setRd_wr (s : Block N CW) (x : BitVec CW) : (s.setRd x).wr = s.wr := rfl
@[simp] theorem Block.setRd_rd (s : Block N CW) (x : BitVec CW) : (s.setRd x).rd = x := rfl
@[simp] theorem Block.setRd_qMem (s : Block N CW) (x : BitVec CW) : (s.setRd x).qMem = s.qMem := rfl

@[simp] theorem Block.setMem_rxIndex (s : Block N CW) (m : Memory) : (s.setMem m).rxIndex = s.rxIndex := rfl
@[simp] theorem Block.setMem_rxBuf (s : Block N CW) (m : Memory) : (s.setMem m).rxBuf = s.rxBuf := rfl
@[simp] theorem Block.setMem_wr (s : Block N CW) (m : Memory) : (s.setMem m).wr = s.wr := rfl
@[simp] theorem Block.setMem_rd (s : Block N CW) (m : Memory) : (s.setMem m).rd = s.rd := rfl
@[simp] theorem Block.setMem_qMem (s : Block N CW) (m : Memory) : (s.setMem m).qMem = m := rfl

@[simp] theorem Block.setIndex_slot (s : Block N CW) (i : Fin (N + 1)) (a : BitVec CW) :
    (s.setIndex i).slot a = s.slot a := rfl
@[simp] theorem Block.setBuf_slot (s : Block N CW) (rec : Record N) (a : BitVec CW) :
    (s.setBuf rec).slot a = s.slot a := rfl
@[simp] theorem Block.setWr_slot (s : Block N CW) (x a : BitVec CW) : (s.setWr x).slot a = s.slot a := rfl
@[simp] theorem Block.setRd_slot (s : Block N CW) (x a : BitVec CW) : (s.setRd x).slot a = s.slot a := rfl
@[simp] theorem Block.setMem_slot (s : Block N CW) (m : Memory) (a : BitVec CW) :
    (s.setMem m).slot a = Memory.readSlot N m a := rfl

/-! ### Updates of the machine -/

@[simp] theorem State.setBlock_block (s : State) (b : Block Config.thisHardware.N Config.thisHardware.CW) :
    (s.setBlock b).block = b := rfl
@[simp] theorem State.setBlock_deqOut (s : State) (b : Block Config.thisHardware.N Config.thisHardware.CW) :
    (s.setBlock b).deqOut = s.deqOut := rfl
@[simp] theorem State.setBlock_inputs (s : State) (b : Block Config.thisHardware.N Config.thisHardware.CW) :
    (s.setBlock b).inputs = s.inputs := rfl
@[simp] theorem State.setBlock_consumer (s : State) (b : Block Config.thisHardware.N Config.thisHardware.CW) :
    (s.setBlock b).consumer = s.consumer := rfl
@[simp] theorem State.setBlock_calls (s : State) (b : Block Config.thisHardware.N Config.thisHardware.CW) :
    (s.setBlock b).calls = s.calls := rfl
@[simp] theorem State.setBlock_draws (s : State) (b : Block Config.thisHardware.N Config.thisHardware.CW) :
    (s.setBlock b).draws = s.draws := rfl

@[simp] theorem State.setPort_block (s : State) (r : Option (Record Config.thisHardware.N)) :
    (s.setPort r).block = s.block := rfl
@[simp] theorem State.setPort_deqOut (s : State) (r : Option (Record Config.thisHardware.N)) :
    (s.setPort r).deqOut = r.map pack := rfl
@[simp] theorem State.setPort_inputs (s : State) (r : Option (Record Config.thisHardware.N)) :
    (s.setPort r).inputs = s.inputs := rfl
@[simp] theorem State.setPort_consumer (s : State) (r : Option (Record Config.thisHardware.N)) :
    (s.setPort r).consumer = s.consumer := rfl
@[simp] theorem State.setPort_calls (s : State) (r : Option (Record Config.thisHardware.N)) :
    (s.setPort r).calls = s.calls := rfl
@[simp] theorem State.setPort_draws (s : State) (r : Option (Record Config.thisHardware.N)) :
    (s.setPort r).draws = s.draws := rfl

@[simp] theorem State.setConsumer_block (s : State) (k : Consumer) : (s.setConsumer k).block = s.block := rfl
@[simp] theorem State.setConsumer_deqOut (s : State) (k : Consumer) : (s.setConsumer k).deqOut = s.deqOut := rfl
@[simp] theorem State.setConsumer_inputs (s : State) (k : Consumer) : (s.setConsumer k).inputs = s.inputs := rfl
@[simp] theorem State.setConsumer_consumer (s : State) (k : Consumer) : (s.setConsumer k).consumer = k := rfl
@[simp] theorem State.setConsumer_calls (s : State) (k : Consumer) : (s.setConsumer k).calls = s.calls := rfl
@[simp] theorem State.setConsumer_draws (s : State) (k : Consumer) : (s.setConsumer k).draws = s.draws := rfl

@[simp] theorem State.issue_block (s : State) (cs : List Call) : (s.issue cs).block = s.block := rfl
@[simp] theorem State.issue_deqOut (s : State) (cs : List Call) : (s.issue cs).deqOut = s.deqOut := rfl
@[simp] theorem State.issue_inputs (s : State) (cs : List Call) : (s.issue cs).inputs = s.inputs := rfl
@[simp] theorem State.issue_consumer (s : State) (cs : List Call) : (s.issue cs).consumer = s.consumer := rfl
@[simp] theorem State.issue_calls (s : State) (cs : List Call) : (s.issue cs).calls = s.calls ++ cs := rfl
@[simp] theorem State.issue_draws (s : State) (cs : List Call) : (s.issue cs).draws = s.draws := rfl

@[simp] theorem State.setInputs_block (s : State) (ws : List (BitVec 12)) : (s.setInputs ws).block = s.block := rfl
@[simp] theorem State.setInputs_deqOut (s : State) (ws : List (BitVec 12)) : (s.setInputs ws).deqOut = s.deqOut := rfl
@[simp] theorem State.setInputs_inputs (s : State) (ws : List (BitVec 12)) : (s.setInputs ws).inputs = ws := rfl
@[simp] theorem State.setInputs_consumer (s : State) (ws : List (BitVec 12)) :
    (s.setInputs ws).consumer = s.consumer := rfl
@[simp] theorem State.setInputs_calls (s : State) (ws : List (BitVec 12)) : (s.setInputs ws).calls = s.calls := rfl
@[simp] theorem State.setInputs_draws (s : State) (ws : List (BitVec 12)) : (s.setInputs ws).draws = s.draws := rfl

@[simp] theorem State.draw_block (s : State) : s.draw.block = s.block := rfl
@[simp] theorem State.draw_deqOut (s : State) : s.draw.deqOut = s.deqOut := rfl
@[simp] theorem State.draw_inputs (s : State) : s.draw.inputs = s.inputs := rfl
@[simp] theorem State.draw_consumer (s : State) : s.draw.consumer = s.consumer := rfl
@[simp] theorem State.draw_calls (s : State) : s.draw.calls = s.calls := rfl
@[simp] theorem State.draw_draws (s : State) : s.draw.draws = s.draws + 1 := rfl

/-! ### One cycle of the machine -/

@[simp] theorem State.portCycle_block (dq id : Bool) (byte : Option Byte) (s : State) :
    (s.portCycle dq id byte).block = s.block.cycle Config.thisHardware dq id byte := rfl

@[simp] theorem State.portCycle_deqOut (dq id : Bool) (byte : Option Byte) (s : State) :
    (s.portCycle dq id byte).deqOut = (s.block.returned dq).map pack := rfl

@[simp] theorem State.portCycle_inputs (dq id : Bool) (byte : Option Byte) (s : State) :
    (s.portCycle dq id byte).inputs = s.inputs := rfl

@[simp] theorem State.portCycle_consumer (dq id : Bool) (byte : Option Byte) (s : State) :
    (s.portCycle dq id byte).consumer = (if dq then consumerAfter (s.block.returned dq) else s.consumer) := rfl

@[simp] theorem State.portCycle_calls (dq id : Bool) (byte : Option Byte) (s : State) :
    (s.portCycle dq id byte).calls = s.calls := rfl

@[simp] theorem State.portCycle_draws (dq id : Bool) (byte : Option Byte) (s : State) :
    (s.portCycle dq id byte).draws = s.draws + 1 := rfl

@[simp] theorem State.resetCycle_block (s : State) : s.resetCycle.block = s.block.reset := rfl
@[simp] theorem State.resetCycle_deqOut (s : State) : s.resetCycle.deqOut = none := rfl
@[simp] theorem State.resetCycle_inputs (s : State) : s.resetCycle.inputs = s.inputs := rfl
@[simp] theorem State.resetCycle_consumer (s : State) : s.resetCycle.consumer = s.consumer := rfl
@[simp] theorem State.resetCycle_calls (s : State) : s.resetCycle.calls = s.calls := rfl
@[simp] theorem State.resetCycle_draws (s : State) : s.resetCycle.draws = s.draws + 1 := rfl

/-! ### The power-on state -/

@[simp] theorem State.reset_rxIndex : State.reset.block.rxIndex = 0 := rfl
@[simp] theorem State.reset_rxBuf : State.reset.block.rxBuf = powerOnRxBuf Config.thisHardware.N := rfl
@[simp] theorem State.reset_wr : State.reset.block.wr = 0 := rfl
@[simp] theorem State.reset_rd : State.reset.block.rd = 0 := rfl
@[simp] theorem State.reset_qMem : State.reset.block.qMem = [] := rfl
@[simp] theorem State.reset_deqOut : State.reset.deqOut = none := rfl
@[simp] theorem State.reset_inputs : State.reset.inputs = [] := rfl
@[simp] theorem State.reset_consumer : State.reset.consumer = .polling := rfl
@[simp] theorem State.reset_calls : State.reset.calls = [] := rfl

end Sys2Proof.Machine
end

