-- ==== Sys2Proof/Laws/Memory.lean ====
section
/-!
SUPPORT. The laws of the queue's memory: a read after a write, the frame of a write, whole-slot accesses, and the canonical
form, which every memory operation keeps.
-/

namespace Sys2Proof.Machine

variable {N CW : Nat}

/-! ### One byte -/

@[simp] theorem Memory.written_nil (a : Nat) : Memory.written [] a = none := rfl

/-- What a byte write leaves written anywhere. -/
theorem Memory.written_write (m : Memory) (a x : Nat) (v : Byte) :
    Memory.written (Memory.write m a v) x = if a = x then some v else Memory.written m x := by
  induction m with
  | nil => rfl
  | cons cell m ih =>
    obtain ⟨y, u⟩ := cell
    unfold Memory.write
    split
    · rfl
    · split
      · rename_i h
        subst h
        by_cases hx : a = x <;> simp [Memory.written, hx]
      · simp only [Memory.written, ih]
        split <;> split <;> simp_all

/-- What a byte write leaves readable anywhere. -/
theorem Memory.read_write (m : Memory) (a x : Nat) (v : Byte) :
    Memory.read (Memory.write m a v) x = if a = x then v else Memory.read m x := by
  unfold Memory.read
  rw [Memory.written_write]
  split <;> rfl

/-! ### Consecutive bytes -/

/-- What writing consecutive bytes leaves written anywhere. -/
theorem Memory.written_writeBytes (bs : List Byte) (m : Memory) (a x : Nat) :
    Memory.written (Memory.writeBytes m a bs) x =
      if h : a ≤ x ∧ x - a < bs.length then some (bs[x - a]'h.2) else Memory.written m x := by
  induction bs generalizing m a with
  | nil => simp [Memory.writeBytes]
  | cons b bs ih =>
    rw [Memory.writeBytes, ih, Memory.written_write]
    by_cases hx : a = x
    · subst hx
      simp
    · by_cases hlt : a < x
      · obtain ⟨d, rfl⟩ : ∃ d, x = a + 1 + d := ⟨x - (a + 1), by omega⟩
        have e : a + 1 + d - a = d + 1 := by omega
        simp [hx, e, List.getElem_cons_succ, show a + 1 + d - (a + 1) = d by omega, show a ≤ a + 1 + d by omega]
      · simp [hx, show ¬ a + 1 ≤ x by omega, show ¬ a ≤ x by omega]

/-! ### One slot -/

/-- A slot's bytes end before the next slot begins. -/
theorem cellAddr_lt_of_lt {p q : BitVec CW} {k : Nat} (hk : k ≤ N) (h : p.toNat < q.toNat) :
    cellAddr N p k < cellAddr N q 0 := by
  have : (N + 1) * (p.toNat + 1) ≤ (N + 1) * q.toNat := Nat.mul_le_mul_left _ h
  rw [Nat.mul_add_one] at this
  unfold cellAddr
  omega

/-- A byte's address within its slot. -/
theorem cellAddr_eq_add (p : BitVec CW) (k : Nat) : cellAddr N p k = cellAddr N p 0 + k := rfl

/-- The bytes of two slots do not meet. -/
theorem cellAddr_inj {p q : BitVec CW} {j k : Nat} (hj : j ≤ N) (hk : k ≤ N)
    (h : cellAddr N p j = cellAddr N q k) : p = q ∧ j = k := by
  rcases Nat.lt_trichotomy p.toNat q.toNat with hlt | heq | hgt
  · have := cellAddr_lt_of_lt hj hlt
    rw [cellAddr_eq_add q k] at h
    omega
  · obtain rfl := BitVec.eq_of_toNat_eq heq
    exact ⟨rfl, Nat.add_left_cancel h⟩
  · have := cellAddr_lt_of_lt hk hgt
    rw [cellAddr_eq_add p j] at h
    omega

/-- A byte of a slot is within the memory. -/
theorem cellAddr_lt (p : BitVec CW) {k : Nat} (hk : k ≤ N) : cellAddr N p k < (N + 1) * 2 ^ CW := by
  have : (N + 1) * (p.toNat + 1) ≤ (N + 1) * 2 ^ CW := Nat.mul_le_mul_left _ p.isLt
  rw [Nat.mul_add_one] at this
  unfold cellAddr
  omega

/-- What a record write leaves written anywhere: its bytes, in order, from the slot's first address. -/
theorem Memory.written_writeSlot (m : Memory) (p : BitVec CW) (rec : Record N) (x : Nat) :
    Memory.written (Memory.writeSlot m p rec) x =
      if h : cellAddr N p 0 ≤ x ∧ x - cellAddr N p 0 < N + 1 then some (rec[x - cellAddr N p 0]'h.2)
      else Memory.written m x := by
  unfold Memory.writeSlot
  rw [Memory.written_writeBytes]
  simp

/-- Outside the slot a record write changes no byte. -/
theorem Memory.read_writeSlot_outside (m : Memory) (p : BitVec CW) (rec : Record N) {x : Nat}
    (h : x < cellAddr N p 0 ∨ cellAddr N p 0 + (N + 1) ≤ x) :
    Memory.read (Memory.writeSlot m p rec) x = Memory.read m x := by
  unfold Memory.read
  rw [Memory.written_writeSlot, dif_neg (by omega)]

/-- Byte `k` of a slot after a record write to it. -/
theorem Memory.written_writeSlot_same (m : Memory) (p : BitVec CW) (rec : Record N) {k : Nat} (hk : k < N + 1) :
    Memory.written (Memory.writeSlot m p rec) (cellAddr N p k) = some rec[k] := by
  have e : cellAddr N p k - cellAddr N p 0 = k := by simp [cellAddr]
  rw [Memory.written_writeSlot, dif_pos ⟨by simp [cellAddr], by omega⟩]
  simp [e]

/-- Byte `k` of a slot after a record write to another slot. -/
theorem Memory.written_writeSlot_other (m : Memory) {p q : BitVec CW} (rec : Record N) (h : p ≠ q) {k : Nat}
    (hk : k < N + 1) :
    Memory.written (Memory.writeSlot m p rec) (cellAddr N q k) = Memory.written m (cellAddr N q k) := by
  rw [Memory.written_writeSlot, dif_neg]
  rintro ⟨h1, h2⟩
  refine h (cellAddr_inj (N := N) (j := cellAddr N q k - cellAddr N p 0) (k := k) (by omega) (by omega) ?_).1
  rw [cellAddr_eq_add p]
  omega

/-- Byte `k` of the record read from a slot. -/
theorem Memory.readSlot_getElem (m : Memory) (p : BitVec CW) {k : Nat} (hk : k < N + 1) :
    (Memory.readSlot N m p)[k] = Memory.read m (cellAddr N p k) := by
  simp [Memory.readSlot]

/-- Reading a slot just written gives the record written (R37). -/
@[simp] theorem Memory.readSlot_writeSlot_same (m : Memory) (p : BitVec CW) (rec : Record N) :
    Memory.readSlot N (Memory.writeSlot m p rec) p = rec := by
  refine Vector.ext fun k hk => ?_
  rw [Memory.readSlot_getElem _ _ hk, Memory.read, Memory.written_writeSlot_same _ _ _ hk, Option.getD_some]

/-- Writing a slot leaves every other slot as it was. -/
theorem Memory.readSlot_writeSlot_other (m : Memory) {p q : BitVec CW} (rec : Record N) (h : p ≠ q) :
    Memory.readSlot N (Memory.writeSlot m p rec) q = Memory.readSlot N m q := by
  refine Vector.ext fun k hk => ?_
  rw [Memory.readSlot_getElem _ _ hk, Memory.readSlot_getElem _ _ hk, Memory.read,
    Memory.written_writeSlot_other _ _ h hk, Memory.read]

theorem Memory.wholeSlots_nil : Memory.wholeSlots N CW [] := fun _ _ _ _ _ => rfl

/-- A record write leaves every slot written as a whole or not at all, if each was (R34, R36). -/
theorem Memory.wholeSlots_writeSlot {m : Memory} (p : BitVec CW) (rec : Record N) (h : Memory.wholeSlots N CW m) :
    Memory.wholeSlots N CW (Memory.writeSlot m p rec) := by
  intro q j k hj hk
  by_cases e : p = q
  · subst e
    rw [Memory.written_writeSlot_same _ _ _ (Nat.lt_succ_of_le hj),
      Memory.written_writeSlot_same _ _ _ (Nat.lt_succ_of_le hk), Option.isSome_some, Option.isSome_some]
  · rw [Memory.written_writeSlot_other _ _ e (Nat.lt_succ_of_le hj),
      Memory.written_writeSlot_other _ _ e (Nat.lt_succ_of_le hk)]
    exact h q j k hj hk

/-! ### The canonical form -/

/-- A byte write keeps the addresses rising. -/
theorem Memory.risesFrom_write (m : Memory) (lo a : Nat) (v : Byte) (hlo : lo ≤ a)
    (h : Memory.risesFrom lo m = true) : Memory.risesFrom lo (Memory.write m a v) = true := by
  induction m generalizing lo with
  | nil => simp [Memory.write, Memory.risesFrom, hlo]
  | cons cell m ih =>
    obtain ⟨x, u⟩ := cell
    simp only [Memory.risesFrom, Bool.and_eq_true, decide_eq_true_eq] at h
    unfold Memory.write
    split
    · rename_i hax
      simp [Memory.risesFrom, hlo, h.2, show a + 1 ≤ x by omega]
    · split
      · rename_i hax
        subst hax
        simp [Memory.risesFrom, hlo, h.2]
      · rename_i h1 h2
        simp [Memory.risesFrom, h.1, ih (x + 1) (by omega) h.2]

/-- A byte write adds no address but its own. -/
theorem Memory.all_write (p : Host.Cell → Bool) (m : Memory) (a : Nat) (v : Byte) (ha : p (a, v) = true)
    (h : m.all p = true) : (Memory.write m a v).all p = true := by
  induction m with
  | nil => simp [Memory.write, ha]
  | cons cell m ih =>
    obtain ⟨x, u⟩ := cell
    simp only [List.all_cons, Bool.and_eq_true] at h
    unfold Memory.write
    split
    · simp [ha, h.1, h.2]
    · split
      · simp [ha, h.2]
      · simp only [List.all_cons, h.1, ih h.2, Bool.and_self]

/-- A byte write inside the memory keeps the canonical form. -/
theorem Memory.wf_write {m : Memory} (a : Nat) (v : Byte) (ha : a < (N + 1) * 2 ^ CW)
    (h : Memory.wf N CW m = true) : Memory.wf N CW (Memory.write m a v) = true := by
  simp only [Memory.wf, Bool.and_eq_true] at *
  exact ⟨Memory.risesFrom_write m 0 a v (Nat.zero_le a) h.1,
    Memory.all_write _ m a v (decide_eq_true ha) h.2⟩

/-- Consecutive byte writes inside the memory keep the canonical form. -/
theorem Memory.wf_writeBytes (bs : List Byte) {m : Memory} (a : Nat)
    (ha : a + bs.length ≤ (N + 1) * 2 ^ CW) (h : Memory.wf N CW m = true) :
    Memory.wf N CW (Memory.writeBytes m a bs) = true := by
  induction bs generalizing m a with
  | nil => exact h
  | cons b bs ih =>
    simp only [List.length_cons] at ha
    exact ih (a + 1) (by omega) (Memory.wf_write a b (by omega) h)

/-- A record write keeps the canonical form. -/
theorem Memory.wf_writeSlot {m : Memory} (p : BitVec CW) (rec : Record N) (h : Memory.wf N CW m = true) :
    Memory.wf N CW (Memory.writeSlot m p rec) = true := by
  refine Memory.wf_writeBytes _ _ ?_ h
  have := cellAddr_lt p (Nat.le_refl N)
  rw [cellAddr_eq_add] at this
  rw [Vector.length_toList]
  omega

/-- Memory with nothing written has the canonical form, that of power-on among it. -/
@[simp] theorem Memory.wf_nil : Memory.wf N CW [] = true := rfl

end Sys2Proof.Machine
end

