-- ==== Sys2Proof/Laws/Ops.lean ====
section
/-!
SUPPORT. One lemma per shared operation that says once everything it can do; later proofs cite these and do not unfold the
operations.
-/

namespace Sys2Proof.Machine

variable {N CW : Nat}

/-! ### Derived predicates -/

theorem Block.empty_iff (s : Block N CW) : s.empty = true ↔ s.wr = s.rd := by simp [Block.empty]

theorem Block.full_iff (s : Block N CW) : s.full = true ↔ nextCursor s.wr = s.rd := by simp [Block.full]

theorem Block.completing_iff (s : Block N CW) : s.completing = true ↔ s.rxIndex = Fin.last N := by
  simp [Block.completing]

/-- A cursor and its successor differ, since there are at least two slots. -/
theorem nextCursor_ne (h : 1 ≤ CW) (x : BitVec CW) : nextCursor x ≠ x := by
  have two : 2 ^ 1 ≤ 2 ^ CW := Nat.pow_le_pow_right (by decide) h
  intro e
  have e : (x.toNat + 1) % 2 ^ CW = x.toNat := by
    simpa [nextCursor, Nat.mod_eq_of_lt (Nat.lt_of_lt_of_le (by decide : 1 < 2 ^ 1) two)] using congrArg BitVec.toNat e
  rcases Nat.lt_or_ge (x.toNat + 1) (2 ^ CW) with hlt | hge
  · rw [Nat.mod_eq_of_lt hlt] at e
    omega
  · have : x.toNat + 1 = 2 ^ CW := Nat.le_antisymm x.isLt hge
    rw [this, Nat.mod_self] at e
    omega

/-- A full queue is not empty (R69 corner (a)). -/
theorem Block.not_empty_of_full (hcw : 1 ≤ CW) {s : Block N CW} (h : s.full = true) : s.empty = false := by
  rw [Block.full_iff] at h
  rw [← Bool.not_eq_true, Block.empty_iff, ← h]
  exact (nextCursor_ne hcw s.wr).symm

/-! ### ENQUEUE -/

/-- Everything ENQUEUE can do: accept and store; drop and advance; drop (R69). -/
theorem Block.enqueue_cases (c : Config) (rec : Record c.N) (s : Block c.N c.CW) :
    (s.full = false ∧
      s.enqueue c rec = (s.setMem (Memory.writeSlot s.qMem s.wr rec)).setWr (nextCursor s.wr)) ∨
    (s.full = true ∧ c.ovfAdvance = true ∧ s.enqueue c rec = s.setWr (nextCursor s.wr)) ∨
    (s.full = true ∧ c.ovfAdvance = false ∧ s.enqueue c rec = s) := by
  unfold Block.enqueue
  cases hf : s.full <;> cases ho : c.ovfAdvance <;> simp

theorem Block.enqueue_of_not_full (c : Config) (rec : Record c.N) {s : Block c.N c.CW} (h : s.full = false) :
    s.enqueue c rec = (s.setMem (Memory.writeSlot s.qMem s.wr rec)).setWr (nextCursor s.wr) := by
  simp [Block.enqueue, h]

@[simp] theorem Block.enqueue_rxIndex (c : Config) (rec : Record c.N) (s : Block c.N c.CW) :
    (s.enqueue c rec).rxIndex = s.rxIndex := by
  rcases Block.enqueue_cases c rec s with ⟨_, h⟩ | ⟨_, _, h⟩ | ⟨_, _, h⟩ <;> rw [h] <;> rfl

@[simp] theorem Block.enqueue_rxBuf (c : Config) (rec : Record c.N) (s : Block c.N c.CW) :
    (s.enqueue c rec).rxBuf = s.rxBuf := by
  rcases Block.enqueue_cases c rec s with ⟨_, h⟩ | ⟨_, _, h⟩ | ⟨_, _, h⟩ <;> rw [h] <;> rfl

@[simp] theorem Block.enqueue_rd (c : Config) (rec : Record c.N) (s : Block c.N c.CW) : (s.enqueue c rec).rd = s.rd := by
  rcases Block.enqueue_cases c rec s with ⟨_, h⟩ | ⟨_, _, h⟩ | ⟨_, _, h⟩ <;> rw [h] <;> rfl

/-- Every slot after an accepted ENQUEUE: the record at the write cursor, the others as they were (R69). -/
theorem Block.enqueue_slot_of_not_full (c : Config) (rec : Record c.N) {s : Block c.N c.CW} (h : s.full = false)
    (a : BitVec c.CW) : (s.enqueue c rec).slot a = if s.wr = a then rec else s.slot a := by
  rw [Block.enqueue_of_not_full c rec h, Block.setWr_slot, Block.setMem_slot]
  split
  · rename_i e
    rw [← e, Memory.readSlot_writeSlot_same]
  · rename_i e
    exact Memory.readSlot_writeSlot_other s.qMem rec e

/-- Every slot after a dropped ENQUEUE, as it was (R69). -/
theorem Block.enqueue_slot_of_full (c : Config) (rec : Record c.N) {s : Block c.N c.CW} (h : s.full = true)
    (a : BitVec c.CW) : (s.enqueue c rec).slot a = s.slot a := by
  rcases Block.enqueue_cases c rec s with ⟨e, _⟩ | ⟨_, _, e⟩ | ⟨_, _, e⟩
  · rw [e] at h
    cases h
  · rw [e, Block.setWr_slot]
  · rw [e]

/-- ENQUEUE keeps the memory's canonical form. -/
theorem Block.enqueue_wf (c : Config) (rec : Record c.N) {s : Block c.N c.CW} (h : Memory.wf c.N c.CW s.qMem = true) :
    Memory.wf c.N c.CW (s.enqueue c rec).qMem = true := by
  rcases Block.enqueue_cases c rec s with ⟨_, e⟩ | ⟨_, _, e⟩ | ⟨_, _, e⟩ <;> rw [e]
  · exact Memory.wf_writeSlot s.wr rec h
  · exact h
  · exact h

/-! ### RXBYTE -/

/-- Everything RXBYTE can do: hand over a completed record, or advance the index (R59). -/
theorem Block.rxByte_cases (c : Config) (b : Byte) (s : Block c.N c.CW) :
    (s.completing = true ∧ s.handedOver b = some (s.bufWith b) ∧
      s.rxByte c b = ((s.setBuf (s.bufWith b)).setIndex 0).enqueue c (s.bufWith b)) ∨
    (s.completing = false ∧ s.handedOver b = none ∧
      s.rxByte c b = (s.setBuf (s.bufWith b)).setIndex (s.rxIndex + 1)) := by
  unfold Block.rxByte Block.handedOver
  cases s.completing <;> simp

@[simp] theorem Block.rxByte_rxBuf (c : Config) (b : Byte) (s : Block c.N c.CW) :
    (s.rxByte c b).rxBuf = s.bufWith b := by
  rcases Block.rxByte_cases c b s with ⟨_, _, h⟩ | ⟨_, _, h⟩ <;> rw [h] <;> simp

@[simp] theorem Block.rxByte_rd (c : Config) (b : Byte) (s : Block c.N c.CW) : (s.rxByte c b).rd = s.rd := by
  rcases Block.rxByte_cases c b s with ⟨_, _, h⟩ | ⟨_, _, h⟩ <;> rw [h] <;> simp

/-- RXBYTE keeps the memory's canonical form. -/
theorem Block.rxByte_wf (c : Config) (b : Byte) {s : Block c.N c.CW} (h : Memory.wf c.N c.CW s.qMem = true) :
    Memory.wf c.N c.CW (s.rxByte c b).qMem = true := by
  rcases Block.rxByte_cases c b s with ⟨_, _, e⟩ | ⟨_, _, e⟩ <;> rw [e]
  · exact Block.enqueue_wf c _ h
  · exact h

/-- Byte `k` of the buffer after a byte is stored. -/
theorem Block.bufWith_getElem (s : Block N CW) (b : Byte) {k : Nat} (hk : k < N + 1) :
    (s.bufWith b)[k] = if s.rxIndex.val = k then b else s.rxBuf[k] := by
  unfold Block.bufWith
  rw [Vector.getElem_set]

/-! ### IDLE, RESET and the two sides of a cycle -/

@[simp] theorem Block.idle_rxIndex (s : Block N CW) : s.idle.rxIndex = 0 := rfl
@[simp] theorem Block.idle_rxBuf (s : Block N CW) : s.idle.rxBuf = s.rxBuf := rfl
@[simp] theorem Block.idle_wr (s : Block N CW) : s.idle.wr = s.wr := rfl
@[simp] theorem Block.idle_rd (s : Block N CW) : s.idle.rd = s.rd := rfl
@[simp] theorem Block.idle_qMem (s : Block N CW) : s.idle.qMem = s.qMem := rfl

@[simp] theorem Block.reset_rxIndex (s : Block N CW) : s.reset.rxIndex = 0 := rfl
@[simp] theorem Block.reset_rxBuf (s : Block N CW) : s.reset.rxBuf = s.rxBuf := rfl
@[simp] theorem Block.reset_wr (s : Block N CW) : s.reset.wr = 0 := rfl
@[simp] theorem Block.reset_rd (s : Block N CW) : s.reset.rd = 0 := rfl
@[simp] theorem Block.reset_qMem (s : Block N CW) : s.reset.qMem = s.qMem := rfl

@[simp] theorem Block.producerSide_none_false (c : Config) (s : Block c.N c.CW) : s.producerSide c false none = s := rfl
@[simp] theorem Block.producerSide_none_true (c : Config) (s : Block c.N c.CW) : s.producerSide c true none = s.idle := rfl
@[simp] theorem Block.producerSide_some_false (c : Config) (b : Byte) (s : Block c.N c.CW) :
    s.producerSide c false (some b) = s.rxByte c b := rfl
@[simp] theorem Block.producerSide_some_true (c : Config) (b : Byte) (s : Block c.N c.CW) :
    s.producerSide c true (some b) = (s.rxByte c b).idle := rfl

/-- The producer side never writes the read cursor (R23, R90). -/
@[simp] theorem Block.producerSide_rd (c : Config) (id : Bool) (byte : Option Byte) (s : Block c.N c.CW) :
    (s.producerSide c id byte).rd = s.rd := by
  cases id <;> cases byte <;> simp

/-- The producer side keeps the memory's canonical form. -/
theorem Block.producerSide_wf (c : Config) (id : Bool) (byte : Option Byte) {s : Block c.N c.CW}
    (h : Memory.wf c.N c.CW s.qMem = true) : Memory.wf c.N c.CW (s.producerSide c id byte).qMem = true := by
  cases id <;> cases byte <;> simp [h, Block.rxByte_wf c _ h]

@[simp] theorem Block.cycle_rxIndex (c : Config) (dq id : Bool) (byte : Option Byte) (s : Block c.N c.CW) :
    (s.cycle c dq id byte).rxIndex = (s.producerSide c id byte).rxIndex := rfl
@[simp] theorem Block.cycle_rxBuf (c : Config) (dq id : Bool) (byte : Option Byte) (s : Block c.N c.CW) :
    (s.cycle c dq id byte).rxBuf = (s.producerSide c id byte).rxBuf := rfl
@[simp] theorem Block.cycle_wr (c : Config) (dq id : Bool) (byte : Option Byte) (s : Block c.N c.CW) :
    (s.cycle c dq id byte).wr = (s.producerSide c id byte).wr := rfl
@[simp] theorem Block.cycle_rd (c : Config) (dq id : Bool) (byte : Option Byte) (s : Block c.N c.CW) :
    (s.cycle c dq id byte).rd = (if dq then s.rdAfter else s.rd) := rfl
@[simp] theorem Block.cycle_qMem (c : Config) (dq id : Bool) (byte : Option Byte) (s : Block c.N c.CW) :
    (s.cycle c dq id byte).qMem = (s.producerSide c id byte).qMem := rfl

/-- A cycle keeps the memory's canonical form. -/
theorem Block.cycle_wf (c : Config) (dq id : Bool) (byte : Option Byte) {s : Block c.N c.CW}
    (h : Memory.wf c.N c.CW s.qMem = true) : Memory.wf c.N c.CW (s.cycle c dq id byte).qMem = true :=
  Block.producerSide_wf c id byte h

/-! ### TRYDEQUEUE -/

/-- Everything TRYDEQUEUE can do: return the head and advance, or return nothing (R70). -/
theorem Block.tryDequeue_cases (s : Block N CW) :
    (s.empty = false ∧ s.head? = some (s.slot s.rd) ∧ s.rdAfter = nextCursor s.rd) ∨
    (s.empty = true ∧ s.head? = none ∧ s.rdAfter = s.rd) := by
  unfold Block.head? Block.rdAfter
  cases s.empty <;> simp

@[simp] theorem Block.returned_false (s : Block N CW) : s.returned false = none := rfl
@[simp] theorem Block.returned_true (s : Block N CW) : s.returned true = s.head? := rfl

/-! ### Fetching -/

/-- Everything fetching can do: the record in the consumer's hands, or the next input vector. -/
theorem State.fetch_cases (s : State) :
    (∃ rec, s.consumer = .holding rec ∧ s.fetch = .record rec ∧ s.take = s.setConsumer .polling) ∨
    (s.handsFree ∧ s.fetch = .input s.nextVector ∧ s.take = s.setInputs s.inputs.tail) := by
  unfold State.fetch State.take State.handsFree
  cases s.consumer <;> simp

/-- Taking the fetched code does not touch the block. -/
@[simp] theorem State.take_block (s : State) : s.take.block = s.block := by
  unfold State.take
  cases s.consumer <;> rfl

end Sys2Proof.Machine
end

