-- ==== Sys2Proof/Laws/Operands.lean ====
section
/-!
SUPPORT. The fields of an input vector made from fields (30_encoding.md R47), records made from bytes (R44), and the number
that a record is on the output port (20_memory.md R33).
-/

namespace Sys2Proof.Machine

@[simp] theorem InputVector.rst_ofFields (r dq id v : Bool) (d : Byte) :
    InputVector.rst (InputVector.ofFields r dq id v d) = r := by
  simp only [InputVector.rst, InputVector.ofFields, BitVec.getLsbD_append, BitVec.getLsbD_ofBool]
  simp

/-- A vector whose highest bit is 1 asserts `rst`, whatever the eleven bits below. -/
@[simp] theorem InputVector.rst_append (ign : BitVec 11) : InputVector.rst (1#1 ++ ign) = true := by
  simp only [InputVector.rst, BitVec.getLsbD_append]
  simp

@[simp] theorem InputVector.deqReq_ofFields (r dq id v : Bool) (d : Byte) :
    InputVector.deqReq (InputVector.ofFields r dq id v d) = dq := by
  simp only [InputVector.deqReq, InputVector.ofFields, BitVec.getLsbD_append, BitVec.getLsbD_ofBool]
  simp

@[simp] theorem InputVector.rxIdle_ofFields (r dq id v : Bool) (d : Byte) :
    InputVector.rxIdle (InputVector.ofFields r dq id v d) = id := by
  simp only [InputVector.rxIdle, InputVector.ofFields, BitVec.getLsbD_append, BitVec.getLsbD_ofBool]
  simp

@[simp] theorem InputVector.rxValid_ofFields (r dq id v : Bool) (d : Byte) :
    InputVector.rxValid (InputVector.ofFields r dq id v d) = v := by
  simp only [InputVector.rxValid, InputVector.ofFields, BitVec.getLsbD_append, BitVec.getLsbD_ofBool]
  simp

@[simp] theorem InputVector.rxData_ofFields (r dq id v : Bool) (d : Byte) :
    InputVector.rxData (InputVector.ofFields r dq id v d) = d := by
  unfold InputVector.rxData InputVector.ofFields
  apply BitVec.eq_of_getLsbD_eq
  intro i hi
  rw [BitVec.getLsbD_extractLsb', BitVec.getLsbD_append]
  simp [hi]

/-! ### Records made from bytes -/

/-- What `recordOf` answers: the record of exactly those bytes. -/
theorem recordOf_eq_some_iff {N : Nat} (bs : List Byte) (rec : Record N) :
    recordOf N bs = some rec ↔ rec.toList = bs := by
  unfold recordOf
  split
  · rw [Option.some_inj]
    constructor
    · rintro rfl
      rfl
    · rintro rfl
      rfl
  · rename_i h
    refine ⟨nofun, fun e => absurd ?_ h⟩
    rw [← e, Vector.length_toList]

@[simp] theorem recordOf_toList {N : Nat} (rec : Record N) : recordOf N rec.toList = some rec :=
  (recordOf_eq_some_iff _ _).2 rfl

/-- A list of the right length has a record. -/
theorem exists_recordOf {N : Nat} {bs : List Byte} (h : bs.length = N + 1) :
    ∃ rec : Record N, recordOf N bs = some rec ∧ rec.toList = bs :=
  ⟨⟨bs.toArray, by simp [h]⟩, by simp [recordOf, h], rfl⟩

/-- The first byte of the record of a list is the list's first. -/
theorem recordOf_head {N : Nat} {b : Byte} {bs : List Byte} {rec : Record N} (h : recordOf N (b :: bs) = some rec) :
    rec[0] = b := by
  have e := (recordOf_eq_some_iff _ _).1 h
  have : rec.toList[0]'(by simp) = b := by simp [e]
  simpa using this

/-! ### The number a list of bytes stands for -/

@[simp] theorem beNat_nil : beNat [] = 0 := rfl

theorem beNat_concat (bs : List Byte) (b : Byte) : beNat (bs ++ [b]) = 256 * beNat bs + b.toNat := by
  simp [beNat]

theorem beNat_append (xs ys : List Byte) : beNat (xs ++ ys) = beNat xs * 256 ^ ys.length + beNat ys := by
  induction ys using List.reverseRecOn with
  | nil => simp
  | append_singleton ys b ih =>
    rw [← List.append_assoc, beNat_concat, ih, beNat_concat, List.length_append, List.length_singleton, pow_succ]
    ring

theorem beNat_cons (b : Byte) (bs : List Byte) : beNat (b :: bs) = b.toNat * 256 ^ bs.length + beNat bs := by
  rw [← List.singleton_append, beNat_append]
  simp [beNat]

/-- The number fits as many bytes as there are. -/
theorem beNat_lt (bs : List Byte) : beNat bs < 256 ^ bs.length := by
  induction bs using List.reverseRecOn with
  | nil => simp
  | append_singleton bs b ih =>
    rw [beNat_concat, List.length_append, List.length_singleton, pow_succ]
    have := b.isLt
    omega

/-- Its base-256 digit at place `i`, counted from the last byte, is the byte that stands there. -/
theorem beNat_digit (xs ys : List Byte) (b : Byte) :
    beNat (xs ++ b :: ys) / 256 ^ ys.length % 256 = b.toNat := by
  have pos : 0 < 256 ^ ys.length := Nat.pow_pos (by decide)
  have small : beNat ys / 256 ^ ys.length = 0 := Nat.div_eq_of_lt (beNat_lt ys)
  have e : beNat (xs ++ b :: ys) = (256 * beNat xs + b.toNat) * 256 ^ ys.length + beNat ys := by
    rw [beNat_append, beNat_cons, List.length_cons, pow_succ]
    ring
  have := b.isLt
  rw [e, Nat.mul_comm, Nat.mul_add_div pos, small]
  omega

/-- No bit of the number is cut off by the port's width. -/
@[simp] theorem pack_toNat {N : Nat} (rec : Record N) : (pack rec).toNat = beNat rec.toList := by
  have h := beNat_lt rec.toList
  rw [Vector.length_toList, show (256 : Nat) = 2 ^ 8 from rfl, ← pow_mul] at h
  rw [pack, BitVec.toNat_ofNat, Nat.mod_eq_of_lt h]

/-- Byte `k` of an unpacked record. -/
theorem unpack_getElem {N : Nat} (d : BitVec (8 * (N + 1))) {k : Nat} (hk : k < N + 1) :
    (unpack d)[k] = d.extractLsb' (8 * (N - k)) 8 := by
  simp [unpack]

end Sys2Proof.Machine
end

