-- ==== Sys2Proof/Laws/PerInstr.lean ====
section
/-!
SUPPORT. Statements made per instruction. `SelectsRow`: the code an instruction is encoded as carries the control bits or
the opcode byte of its row (30_encoding.md R49, R53), and ENQUEUE has none (R69).
-/

namespace Sys2Proof.Laws.SelectsRow

open Sys2Proof.Machine

/-- The fixed part of an instruction's row, as a property of the code it is encoded as. -/
def rowOf (c : Config) : Instr → Code c.N → Prop
  | .reset _, .input w => InputVector.rst w = true
  | .rxbyte _ _ _, .input w => InputVector.rst w = false ∧ InputVector.rxValid w = true
  | .idle _ _, .input w => InputVector.rst w = false ∧ InputVector.rxIdle w = true
  | .trydequeue _, .input w => InputVector.rst w = false ∧ InputVector.deqReq w = true
  | .nop _, .input w => InputVector.rst w = false ∧ InputVector.deqReq w = false ∧ InputVector.rxIdle w = false ∧
      InputVector.rxValid w = false
  | .halt _, .record rec => rec[0] = c.opcHalt
  | .adjustSpeed _ _ _, .record rec => rec[0] = c.opcAdjustSpeed
  | .adjustAngle _ _ _, .record rec => rec[0] = c.opcAdjustAngle
  | .launch _ _, .record rec => rec[0] = c.opcLaunch
  | .unrecognized op _, .record rec => rec[0] = op
  | _, _ => False

/-- A well-formed instruction of a format that has words is encoded as a code of its own row; the internal one has no
code. -/
def Statement (i : Instr) : Prop :=
  ∀ c : Config, i.wf c = true →
    (i.format = .internal ∧ encode c i = none) ∨ ∃ code, encode c i = some code ∧ rowOf c i code

/-- The code of a command: a record whose first byte is the opcode. -/
theorem command_code {N : Nat} {op : Byte} {bs : List Byte} (h : bs.length = N) :
    ∃ rec : Record N, (recordOf N (op :: bs)).map Code.record = some (.record rec) ∧ rec[0] = op :=
  have ⟨rec, e, _⟩ := exists_recordOf (List.length_cons.trans (congrArg (· + 1) h))
  ⟨rec, congrArg (Option.map Code.record) e, recordOf_head e⟩

/-- The payload of an adjust command: a selector, a 16-bit value and the bytes not used. -/
theorem adjust_payload_length {c : Config} {m : Byte} {v : Half} {p : List Byte} (h : (p.length == c.N - 3) = true) :
    (m :: highByte v :: lowByte v :: p).length = c.N := by
  rw [beq_iff_eq] at h
  simp only [List.length_cons]
  have := c.N_ge
  omega

/-- The payload of LAUNCH: a count and the bytes not used. -/
theorem launch_payload_length {c : Config} {r : Byte} {p : List Byte} (h : (p.length == c.N - 1) = true) :
    (r :: p).length = c.N := by
  rw [beq_iff_eq] at h
  simp only [List.length_cons]
  have := c.N_ge
  omega

theorem reset (ign : BitVec 11) : Statement (.reset ign) := fun _ _ => .inr ⟨_, rfl, InputVector.rst_append ign⟩

theorem rxbyte (dq id : Bool) (b : Byte) : Statement (.rxbyte dq id b) := fun _ _ =>
  .inr ⟨_, rfl, InputVector.rst_ofFields .., InputVector.rxValid_ofFields ..⟩

theorem idle (dq : Bool) (d : Byte) : Statement (.idle dq d) := fun _ _ =>
  .inr ⟨_, rfl, InputVector.rst_ofFields .., InputVector.rxIdle_ofFields ..⟩

theorem trydequeue (d : Byte) : Statement (.trydequeue d) := fun _ _ =>
  .inr ⟨_, rfl, InputVector.rst_ofFields .., InputVector.deqReq_ofFields ..⟩

theorem nop (d : Byte) : Statement (.nop d) := fun _ _ =>
  .inr ⟨_, rfl, InputVector.rst_ofFields .., InputVector.deqReq_ofFields .., InputVector.rxIdle_ofFields ..,
    InputVector.rxValid_ofFields ..⟩

theorem enqueue (rec : Record Config.thisHardware.N) : Statement (.enqueue rec) := fun _ _ => .inl ⟨rfl, rfl⟩

theorem halt (p : List Byte) : Statement (.halt p) := fun _ h =>
  have ⟨_, e, h0⟩ := command_code (beq_iff_eq.1 h)
  .inr ⟨_, e, h0⟩

theorem adjustSpeed (m : Byte) (v : Half) (p : List Byte) : Statement (.adjustSpeed m v p) := fun _ h =>
  have ⟨_, e, h0⟩ := command_code (adjust_payload_length h)
  .inr ⟨_, e, h0⟩

theorem adjustAngle (sv : Byte) (v : Half) (p : List Byte) : Statement (.adjustAngle sv v p) := fun _ h =>
  have ⟨_, e, h0⟩ := command_code (adjust_payload_length h)
  .inr ⟨_, e, h0⟩

theorem launch (r : Byte) (p : List Byte) : Statement (.launch r p) := fun _ h =>
  have ⟨_, e, h0⟩ := command_code (launch_payload_length h)
  .inr ⟨_, e, h0⟩

theorem unrecognized (op : Byte) (p : List Byte) : Statement (.unrecognized op p) := fun _ h =>
  have ⟨_, e, h0⟩ := command_code (beq_iff_eq.1 (Bool.and_eq_true_iff.1 h).2)
  .inr ⟨_, e, h0⟩

end Sys2Proof.Laws.SelectsRow
end

