-- ==== Sys2Proof/Tests/Slice0.lean ====
section
/-!
SUPPORT. The model's own tests: the well-formedness smoke, decoding of words written out from the spec's encodings, one step
per instruction against the spec's examples and vectors, and a witness for the hypotheses of each statement that has some.
-/

namespace Sys2Proof.Tests

open Sys2Proof.Machine

abbrev hw : Config := Config.thisHardware

/-- A configuration of the other overflow policy (R5). -/
def keep : Config := { Config.thisHardware with ovfAdvance := false }

/-- The smallest configuration that R3 and R4 admit: `N = 3`, `C = 2`. -/
def small : Config := { Config.thisHardware with N := 3, CW := 1, N_ge := by decide, CW_pos := by decide }

/-- The record of the spec's worked example, cut to the four bytes of that configuration. -/
def smallSample : Record small.N := #v[0x02, 0x01, 0x30, 0x00]

/-- Its block after those four bytes have come from power-on. -/
def smallBlock : Block small.N small.CW := Block.run small (smallSample.toList.map vecRx) (Block.powerOn small.N small.CW)

/-- A block of this hardware. -/
abbrev HwBlock := Block Config.thisHardware.N Config.thisHardware.CW

/-- A state around a block: no output, no inputs, an idle consumer. -/
def around (b : HwBlock) : State :=
  { block := b, deqOut := none, inputs := [], consumer := .polling, calls := [], draws := 0 }

/-- The next state, if there is one. -/
def after : Host.Outcome State Fault Refusal → Option State
  | .next t => some t
  | .fault _ => none
  | .refused _ => none

/-- The record of the spec's worked example, `02 01 30 00 00 00` (R33). -/
def sample : Record hw.N := #v[0x02, 0x01, 0x30, 0x00, 0x00, 0x00]

/-- An in-progress buffer `A1 A2 A3 A4 A5 A6`. -/
def buf : Record hw.N := #v[0xA1, 0xA2, 0xA3, 0xA4, 0xA5, 0xA6]

/-- Slot 31 holds the sample. -/
def mem31 : Memory := Memory.writeSlot [] (31 : BitVec hw.CW) sample

/-- Slots 0 and 31 are written. -/
def mem2 : Memory := Memory.writeSlot mem31 (0 : BitVec hw.CW) buf

/-- A block in the middle of a frame, with an empty queue. -/
def midFrame : HwBlock := { rxIndex := 3, rxBuf := buf, wr := 0, rd := 0, qMem := [] }

/-- One byte before completion, with an empty queue. -/
def lastByte : HwBlock := { rxIndex := 5, rxBuf := sample, wr := 0, rd := 0, qMem := mem2 }

/-- One byte before completion, on a full queue: `wr = 30`, `rd = 31`. -/
def fullBlock : HwBlock := { rxIndex := 5, rxBuf := buf, wr := 30, rd := 31, qMem := mem31 }

/-- One record waiting in slot 31, the read cursor about to wrap. -/
def oneWaiting : HwBlock := { rxIndex := 0, rxBuf := buf, wr := 0, rd := 31, qMem := mem31 }

/-! ### Well-formedness smoke: each check refuses an ill-formed term (R56) -/

theorem test_wf_refuses_halt_opcode : (Instr.unrecognized 0x00 [0, 0, 0, 0, 0]).wf hw = false := by decide
theorem test_wf_refuses_speed_opcode : (Instr.unrecognized 0x02 [0, 0, 0, 0, 0]).wf hw = false := by decide
theorem test_wf_refuses_angle_opcode : (Instr.unrecognized 0x03 [0, 0, 0, 0, 0]).wf hw = false := by decide
theorem test_wf_refuses_launch_opcode : (Instr.unrecognized 0x04 [0, 0, 0, 0, 0]).wf hw = false := by decide
theorem test_wf_admits_others : (Instr.unrecognized 0x01 [0, 0, 0, 0, 0]).wf hw = true ∧ (Instr.unrecognized 0x05 [0, 0, 0, 0, 0]).wf hw = true := by
  decide
theorem test_valid_refuses_equal_opcodes : Config.valid { hw with opcLaunch := 0x03 } = false := by decide

theorem test_wf_refuses_short_halt : (Instr.halt [0, 0, 0, 0]).wf hw = false := by decide
theorem test_wf_refuses_long_speed : (Instr.adjustSpeed 1 2 [0, 0, 0]).wf hw = false := by decide
theorem test_wf_refuses_short_angle : (Instr.adjustAngle 1 2 [0]).wf hw = false := by decide
theorem test_wf_refuses_long_launch : (Instr.launch 1 [0, 0, 0, 0, 0]).wf hw = false := by decide
theorem test_wf_refuses_short_unrecognized : (Instr.unrecognized 0x05 []).wf hw = false := by decide

/-! ### The parameters of this hardware and of the smallest one (R3, R4, R6) -/

theorem test_parameters : hw.N = 5 ∧ hw.C = 32 ∧ hw.CW = 5 ∧ hw.MASK = 31 ∧ hw.IDXW = 3 ∧ hw.RECW = 48 := by decide
theorem test_small_parameters : small.C = 2 ∧ small.MASK = 1 ∧ small.IDXW = 2 ∧ small.RECW = 32 := by decide

/-- With two slots one record fits (R75), and it completes with the fourth byte. -/
theorem test_small_frame : smallBlock.contents = [smallSample] ∧ smallBlock.full = true := by decide

theorem test_small_dispatch : decodeRecord small smallSample = .adjustSpeed 1 0x3000 [] := by decide

/-! ### Decoding, words written out from R47, R49 and R53 -/

theorem test_decode_reset : decodeTableWord 16 0b1000_0000_0000 = some (.reset 0) := by decide
theorem test_decode_reset_overrides : decodeTableWord 16 0xDFF = some (.reset 0x5FF) := by decide
theorem test_decode_rxbyte : decodeTableWord 16 0b0001_0000_0010 = some (.rxbyte false false 0x02) := by decide
theorem test_decode_rxbyte_all : decodeTableWord 16 0b0111_0000_0110 = some (.rxbyte true true 0x06) := by decide
theorem test_decode_rxbyte_deq : decodeTableWord 16 0x5A7 = some (.rxbyte true false 0xA7) := by decide
theorem test_decode_idle : decodeTableWord 16 0b0010_0000_0000 = some (.idle false 0) := by decide
theorem test_decode_idle_deq : decodeTableWord 16 0b0110_0000_0000 = some (.idle true 0) := by decide
theorem test_decode_trydequeue : decodeTableWord 16 0b0100_0000_0000 = some (.trydequeue 0) := by decide
theorem test_decode_nop : decodeTableWord 16 0b0000_1010_0101 = some (.nop 0xA5) := by decide
theorem test_decode_halt : decodeTableWord 48 0x00FFFFFFFFFF = some (.halt [0xFF, 0xFF, 0xFF, 0xFF, 0xFF]) := by decide
theorem test_decode_speed : decodeTableWord 48 0x02FFFFFE1234 = some (.adjustSpeed 0xFF 0xFFFE [0x12, 0x34]) := by decide
theorem test_decode_speed_order : decodeTableWord 48 0x020100800000 = some (.adjustSpeed 1 0x0080 [0, 0]) := by decide
theorem test_decode_angle : decodeTableWord 48 0x03027FFF0000 = some (.adjustAngle 2 0x7FFF [0, 0]) := by decide
theorem test_decode_launch : decodeTableWord 48 0x04FFAABBCCDD = some (.launch 255 [0xAA, 0xBB, 0xCC, 0xDD]) := by decide
theorem test_decode_unrecognized : decodeTableWord 48 0x050102030405 = some (.unrecognized 0x05 [1, 2, 3, 4, 5]) := by
  decide

/-- ENQUEUE is RXBYTE's word in a state with `rx_index = 5`, and only there (R49). -/
theorem test_decode_enqueue_within_rxbyte :
    enqueueWithin (around fullBlock) (decodeInput 0x1EE) =
      some (.enqueue #v[0xA1, 0xA2, 0xA3, 0xA4, 0xA5, 0xEE]) ∧
    enqueueWithin (around midFrame) (decodeInput 0x1EE) = none := by decide

theorem test_decode_rejects_wide_vector : decodeWord hw 16 0x1000 = .error .notAnInputVector := by rfl
theorem test_decode_rejects_wide_record : decodeWord hw 48 (2 ^ 48) = .error .notARecord := by rfl
theorem test_decode_rejects_short_record : decodeRecordBytes hw [0, 1, 2, 3, 4] = .error .notARecord := by rfl
theorem test_decode_rejects_other_width : decodeWord hw 32 0 = .error .noSuchFormat := by rfl

/-- R33: record `02 01 30 00 00 00` is the number 0x020130000000. -/
theorem test_pack_sample : pack sample = 0x020130000000 := by decide

/-! ### One step each, against the spec's examples -/

/-- R59's example: the sixth byte `00` completes `02 01 30 00 00 00` into slot 0 and `wr = 1`. -/
theorem test_rxbyte_completes :
    (after (exec (.rxbyte false false 0x00) (around lastByte))).map
      (fun t => (t.block.rxIndex, t.block.slot 0, t.block.wr)) = some (0, sample, 1) := by decide

/-- V-FA9: a byte with an idle event below `N` is stored and then discarded with the partial frame. -/
theorem test_rxbyte_with_idle :
    (after (exec (.rxbyte false true 0x03) (around midFrame))).map (fun t => (t.block.rxIndex, t.block.rxBuf[3])) =
      some (0, 0x03) := by decide

/-- R60's example: `rx_index` 3 to 0, `rx_buf` unchanged. -/
theorem test_idle_discards :
    (after (exec (.idle false 0) (around midFrame))).map (fun t => (t.block.rxIndex, t.block.rxBuf)) =
      some (0, buf) := by decide

/-- R70 corners (b), (c): one record in slot 31; it is returned and `rd` wraps to 0. -/
theorem test_trydequeue_wraps :
    (after (exec (.trydequeue 0) (around oneWaiting))).map (fun t => (t.deqOut, t.block.rd)) =
      some (some 0x020130000000, 0) := by decide

/-- V-Q1: on an empty queue nothing is returned and `rd` stays. -/
theorem test_trydequeue_empty :
    (after (exec (.trydequeue 0) (around midFrame))).map (fun t => (t.deqOut, t.block.rd)) = some (none, 0) := by
  decide

/-- R69's first example: `wr = 31`, `rd = 5`: slot 31 is written and `wr` wraps to 0. -/
theorem test_enqueue_wraps :
    (after (exec (.enqueue sample) (around { midFrame with wr := 31, rd := 5 }))).map
      (fun t => (t.block.slot 31, t.block.wr)) = some (sample, 0) := by decide

/-- R69's second example: `wr = 4`, `rd = 5`: dropped, and `wr = 5` on this hardware. -/
theorem test_enqueue_drops :
    (after (exec (.enqueue sample) (around { midFrame with wr := 4, rd := 5 }))).map
      (fun t => (t.block.qMem, t.block.wr)) = some ([], 5) := by decide

/-- R69's second example with `OVF_ADVANCE = false`: `wr` stays 4. -/
theorem test_enqueue_drops_keep : ({ midFrame with wr := 4, rd := 5 } : HwBlock).enqueue keep sample =
    { midFrame with wr := 4, rd := 5 } := by decide

/-- R79 (P5, phase 3): overflow in the cycle of a dequeue: `wr = 31`, `rd = 0`. -/
theorem test_overflow_with_dequeue :
    (after (exec (.rxbyte true false 0x00) (around fullBlock))).map
      (fun t => (t.deqOut, t.block.wr, t.block.rd)) = some (some 0x020130000000, 31, 0) := by decide

/-- R85's example: from `rx_index = 4`, `wr = 9`, `rd = 7`. -/
theorem test_reset :
    (after (exec (.reset 0x5FF) (around { midFrame with rxIndex := 4, wr := 9, rd := 7 }))).map
      (fun t => (t.block, t.deqOut)) =
      some ({ rxIndex := 0, rxBuf := buf, wr := 0, rd := 0, qMem := [] }, none) := by decide

/-- V-S9: NOP with `rx_data` not zero leaves the block as it is. -/
theorem test_nop : (after (exec (.nop 0xA5) (around fullBlock))).map State.block = some fullBlock := by decide

/-- V-D1: two calls with speed 0. -/
theorem test_halt_calls_two :
    (after (exec (.halt [0, 0, 0, 0, 0]) (around midFrame))).map (fun t => t.calls = haltCalls hw (Config.haltOrder 0)) =
      some True := by
  simp [exec, execHalt, after, around, State.issue, State.draw]

/-- V-D3 (scenario 2). -/
theorem test_adjust_speed :
    (after (exec (.adjustSpeed 1 0x3000 [0, 0]) (around midFrame))).map State.calls =
      some [.setMotorSpeed 1 0x3000] := by decide

/-- V-D8: unsigned. -/
theorem test_adjust_angle :
    (after (exec (.adjustAngle 0 0x8000 [0, 0]) (around midFrame))).map State.calls =
      some [.setServoAngle 0 0x8000] := by decide

/-- V-D9 (scenario 4), and R103. -/
theorem test_launch :
    (after (exec (.launch 3 [0, 0, 0, 0]) (around midFrame))).map (fun t => (t.calls, t.consumer)) =
      some ([.runFireSequence 3], .firing 3) := by decide

/-- V-D12. -/
theorem test_unrecognized :
    (after (exec (.unrecognized 0x01 [0, 0, 0, 0, 0]) (around midFrame))).map State.calls = some [] := by decide

/-- A vector placed is the next one run: a byte after power-on goes to `rx_buf[0]` (V-FA1). -/
theorem test_step_runs_placed_vector :
    (after (step (State.reset.withFetchWord 16 0x102))).map (fun t => (t.block.rxIndex, t.block.rxBuf[0])) =
      some (1, 0x02) := by decide

/-- A record placed is dispatched by the next step (V-D3). -/
theorem test_step_runs_placed_record :
    (after (step (State.reset.withFetchWord 48 0x020130000000))).map (fun t => (t.calls, t.consumer)) =
      some ([.setMotorSpeed 1 0x3000], .polling) := by decide

/-! ### Witnesses: the hypotheses of the statements can be met -/

theorem witness_decode_of_encode : hw.valid = true ∧ (Instr.unrecognized 0x05 [7, 6, 5, 4, 3]).wf hw = true ∧
    (Instr.unrecognized 0x05 [7, 6, 5, 4, 3]).format ≠ .internal ∧ (Instr.enqueue sample).wf hw = true ∧
    (Instr.enqueue sample).format = .internal := by decide

theorem witness_encoded_word : (Instr.adjustSpeed 1 0x3000 [0, 0]).wf hw = true ∧
    encode hw (.adjustSpeed 1 0x3000 [0, 0]) = some (.record sample) := by decide

theorem witness_opcode_ranges : hw.unrecognizedOpcode 0x05 = true ∧ hw.unrecognizedOpcode 0xFF = true ∧
    hw.unrecognizedOpcode 0x04 = false ∧ hw.unrecognizedOpcode 0x01 = true := by decide

/-- The consumer with a record in its hands, and two vectors to come. -/
def holdingState : State :=
  { around midFrame with inputs := [0x102, 0x400], consumer := .holding sample, deqOut := some (pack sample) }

/-- The consumer inside `RunFireSequence`, and two vectors to come, neither with a request. -/
def firingState : State := { around midFrame with inputs := [0x102, 0x200], consumer := .firing 3 }

theorem witness_step_record : holdingState.consumer = .holding sample := by rfl

theorem witness_step_vector : firingState.handsFree ∧ firingState.inputs = [0x102, 0x200] := by
  exact ⟨by intro rec; simp [firingState], rfl⟩

theorem witness_step_no_vector : (around midFrame).handsFree ∧ (around midFrame).inputs = [] := by
  exact ⟨by intro rec; simp [around], rfl⟩

theorem witness_placed_word : decodeTableWord 16 0x102 = some (.rxbyte false false 0x02) ∧
    decodeTableWord 48 0x040300000000 = some (.launch 3 [0, 0, 0, 0]) := by decide

theorem witness_outputs : InputVector.rst 0x400 = InputVector.rst 0x5A7 ∧
    InputVector.deqReq 0x400 = InputVector.deqReq 0x5A7 ∧
    exec (decodeInput 0x400) (around oneWaiting) = .next ((around oneWaiting).portCycle true false none) ∧
    exec (decodeInput 0x5A7) (around oneWaiting) = .next ((around oneWaiting).portCycle true false (some 0xA7)) := by
  exact ⟨by decide, by decide, rfl, rfl⟩

theorem witness_ignored_bits : InputVector.rst 0x800 = true ∧ InputVector.rst 0xFFF = true ∧
    InputVector.rxValid 0x400 = false ∧ (0x400 : BitVec 12).extractLsb' 8 4 = (0x4FF : BitVec 12).extractLsb' 8 4 := by
  decide

theorem witness_reset_words : (0x800 : BitVec 12).getLsbD 11 = true ∧ (0xFFF : BitVec 12).getLsbD 11 = true := by decide

theorem witness_nop_vectors : (0x000 : BitVec 12).extractLsb' 8 4 = 0 ∧ (0x0FF : BitVec 12).extractLsb' 8 4 = 0 := by
  decide

/-- Both clauses of RXBYTE at their boundaries: index 0, index 4, index 5. -/
theorem witness_rxbyte_indices : (around oneWaiting).block.rxIndex.val < hw.N ∧
    ({ midFrame with rxIndex := 4 } : HwBlock).rxIndex.val < hw.N ∧ lastByte.rxIndex.val = hw.N := by decide

theorem witness_idle_at_boundary : (around oneWaiting).block.rxIndex = 0 := by decide

theorem witness_rx_buffer : (∀ (dq id : Bool) (b : Byte), (Instr.idle true 0) ≠ .rxbyte dq id b) ∧
    (4 : Fin (hw.N + 1)) ≠ midFrame.rxIndex := by
  exact ⟨nofun, by decide⟩

/-- Thirteen bytes with a dequeue and a NOP among them (V-FA4): two records, one byte over. -/
def thirteen : List (BitVec 12) :=
  [0x101, 0x102, 0x103, 0x504, 0x105, 0x106, 0x000, 0x107, 0x108, 0x109, 0x10A, 0x10B, 0x10C, 0x10D]

theorem witness_bytes_form_records : noReset thirteen = true ∧ noIdle thirteen = true ∧ oneWaiting.rxIndex = 0 ∧
    (bytesOf thirteen).length % (hw.N + 1) = 1 ∧ (Block.handed hw thirteen oneWaiting).length = 2 := by decide

theorem witness_frame_after_idle : midFrame.full = false ∧ ({ midFrame with wr := 30 } : HwBlock).full = false := by decide

/-- Both clauses of ENQUEUE: the last accepting state before full, and full. -/
theorem witness_enqueue_clauses :
    (({ midFrame with wr := 30 } : HwBlock).wr.toNat + 1) &&& hw.MASK ≠ midFrame.rd.toNat ∧
    (({ midFrame with wr := 31 } : HwBlock).wr.toNat + 1) &&& hw.MASK = midFrame.rd.toNat ∧
    keep.ovfAdvance = false := by decide

theorem witness_empty_queue : (around midFrame).block.empty = true ∧
    Block.handed hw [0x400, 0x200, 0x400, 0x000] midFrame = [] := by decide

theorem witness_slot_written :
    exec (.enqueue sample) (around { oneWaiting with rd := 5, qMem := mem2 }) =
      .next ((around { oneWaiting with rd := 5, qMem := mem2 }).setBlock
        (({ oneWaiting with rd := 5, qMem := mem2 } : HwBlock).enqueue hw sample)) ∧
    (({ oneWaiting with rd := 5, qMem := mem2 } : HwBlock).enqueue hw sample).slot 0 ≠
      ({ oneWaiting with rd := 5, qMem := mem2 } : HwBlock).slot 0 := by
  exact ⟨rfl, by decide⟩

theorem witness_stores : (∀ rec : Record hw.N, (Instr.rxbyte true false 1) ≠ .enqueue rec) ∧
    enqueueWithin (around midFrame) (.rxbyte true false 1) = none ∧
    (5 < cellAddr hw.N (1 : BitVec hw.CW) 0 ∧ cellAddr hw.N (1 : BitVec hw.CW) 0 + (hw.N + 1) ≤ 12) := by
  exact ⟨nofun, by decide, by decide⟩

theorem witness_not_reset : (∀ ign : BitVec 11, (Instr.rxbyte true false 0) ≠ .reset ign) ∧
    exec (.rxbyte true false 0) (around fullBlock) = .next ((around fullBlock).portCycle true false (some 0)) := by
  exact ⟨nofun, rfl⟩

theorem witness_count : InputVector.rst 0x500 = false := by decide

theorem witness_capacity : (around midFrame).block.empty = true ∧ (List.replicate 31 sample).length ≤ hw.C - 1 ∧
    (List.replicate 31 sample).length = hw.C - 1 := by decide

theorem witness_fifo : noReset thirteen = true ∧ hw.ovfAdvance = true ∧
    Block.neverOverflows hw thirteen oneWaiting = true := by decide

theorem witness_overflow : (around fullBlock).block.full = true ∧ (around fullBlock).block.completing = true ∧
    fullBlock.overflowsOn 0x100 = true ∧ InputVector.deqReq 0x100 = false ∧
    fullBlock.overflowsOn 0x500 = true ∧ InputVector.deqReq 0x500 = true := by decide

theorem witness_overflow_without_advance : keep.ovfAdvance = false ∧ fullBlock.overflowsOn 0x100 = true ∧
    InputVector.deqReq 0x100 = false ∧ fullBlock.overflowsOn 0x500 = true ∧ InputVector.deqReq 0x500 = true := by decide

/-- Neither empty nor full, one byte before completion; and a byte that completes nothing. -/
theorem witness_either_order : ({ lastByte with rd := 31 } : HwBlock).completing = true ∧
    ({ lastByte with rd := 31 } : HwBlock).empty = false ∧ ({ lastByte with rd := 31 } : HwBlock).full = false ∧
    midFrame.completing = false := by decide

theorem witness_arriving : (around lastByte).block.empty = true ∧ (around lastByte).block.completing = true := by decide

/-- Two blocks alike but for their residue: slot 0 and the bytes from `rx_index` on. -/
theorem witness_residue : Block.sameVisible { oneWaiting with rxIndex := 2 }
      { oneWaiting with rxIndex := 2, rxBuf := #v[0xA1, 0xA2, 0, 0, 0, 0], qMem := mem2 } ∧
    (hw.ovfAdvance = true → ({ oneWaiting with rxIndex := 2 } : HwBlock).overflowsOn 0x500 = true →
      InputVector.deqReq 0x500 = false) := by
  refine ⟨⟨rfl, rfl, rfl, by decide, ?_⟩, by decide⟩
  unfold Block.inRange
  decide

/-- Write the sample to every slot of a list. -/
def fillSlots : List (BitVec hw.CW) → Memory → Memory
  | [], m => m
  | slot :: slots, m => fillSlots slots (Memory.writeSlot m slot sample)

theorem readSlot_fillSlots (slots : List (BitVec hw.CW)) (m : Memory) (slot : BitVec hw.CW)
    (h : slot ∈ slots ∨ Memory.readSlot hw.N m slot = sample) : Memory.readSlot hw.N (fillSlots slots m) slot = sample := by
  induction slots generalizing m with
  | nil => exact h.resolve_left (by simp)
  | cons p ps ih =>
    refine ih _ ?_
    by_cases e : slot ∈ ps
    · exact .inl e
    · right
      by_cases hp : p = slot
      · rw [hp, Memory.readSlot_writeSlot_same]
      · rw [Memory.readSlot_writeSlot_other _ _ hp]
        exact h.resolve_left (by simp [e, Ne.symm hp])

/-- Every slot holds the sample. -/
@[irreducible] def memAll : Memory := fillSlots ((List.range 32).map (BitVec.ofNat hw.CW)) []

/-- A full queue, every slot alike, and the same queue moved by three slots round the ring. -/
def ringBlock : HwBlock := { rxIndex := 2, rxBuf := buf, wr := 31, rd := 0, qMem := memAll }
def ringMoved : HwBlock := { ringBlock with wr := 2, rd := 3 }

theorem witness_ring : noReset thirteen = true ∧ ringMoved.rxIndex = ringBlock.rxIndex ∧
    ringMoved.rxBuf = ringBlock.rxBuf ∧ ringMoved.wr = ringBlock.wr + 3 ∧ ringMoved.rd = ringBlock.rd + 3 ∧
    ∀ slot, ringMoved.slot (slot + 3) = ringBlock.slot slot := by
  have all : ∀ slot : BitVec hw.CW, Memory.readSlot hw.N memAll slot = sample := fun slot => by
    unfold memAll
    exact readSlot_fillSlots _ _ _ (.inl (List.mem_map.2 ⟨slot.toNat, List.mem_range.2 slot.isLt, by simp⟩))
  refine ⟨by decide, rfl, rfl, by decide, by decide, fun slot => ?_⟩
  exact (all (slot + 3)).trans (all slot).symm

theorem witness_commands : buf[0] ≠ 0x00 ∧ buf[0] ≠ 0x02 ∧ buf[0] ≠ 0x03 ∧ buf[0] ≠ 0x04 ∧ sample[0] = 0x02 ∧
    (#v[0x00, 1, 2, 3, 4, 5] : Record hw.N)[0] = 0x00 ∧ (#v[0x03, 1, 2, 3, 4, 5] : Record hw.N)[0] = 0x03 ∧
    (#v[0x04, 9, 2, 3, 4, 5] : Record hw.N)[0] = 0x04 ∧ (#v[0x04, 9, 2, 3, 4, 5] : Record hw.N)[1] = 9 ∧
    (Instr.halt [0, 0, 0, 0, 0]).format = .record48 := by decide

/-- The machine's run from a state whose inputs return one record and then go on. -/
theorem witness_dispatched_runs :
    ({ around oneWaiting with inputs := [0x400, 0x102, 0x400] } : State).handsFree ∧
    (Block.outputs hw [0x400, 0x102, 0x400] oneWaiting) = [sample] := by
  exact ⟨nofun, by decide⟩

theorem witness_same_opcode : sample[0] = (#v[0x02, 9, 9, 9, 9, 9] : Record hw.N)[0] := by decide

theorem witness_fire_sequence : noReset firingState.inputs = true ∧
    (firingState.inputs.all fun w => !(InputVector.deqReq w)) = true := by decide

theorem witness_canonical : (around fullBlock).wf = true ∧
    step (around fullBlock) = .next ((around fullBlock).portCycle false false none) := by
  exact ⟨by decide, rfl⟩

theorem witness_slots_whole : Memory.wholeSlots hw.N hw.CW mem31 ∧ fullBlock.qMem = mem31 ∧
    step (around fullBlock) = .next ((around fullBlock).portCycle false false none) :=
  ⟨Memory.wholeSlots_writeSlot _ _ Memory.wholeSlots_nil, rfl, rfl⟩

theorem witness_hands_match : holdingState.handsMatchPort ∧
    step holdingState = exec (.adjustSpeed 1 0x3000 [0, 0]) (holdingState.setConsumer .polling) := by
  refine ⟨?_, rfl⟩
  intro rec h
  cases h
  rfl

end Sys2Proof.Tests
end

section
/-!
The control state at power-on and after RESET (10_state.md R24).
-/

namespace Sys2Proof.Machine

/-- RESET executes as one reset cycle, whatever the eleven ignored bits are (R85). -/
@[simp] theorem exec_reset (ignored : BitVec 11) (s : State) : exec (.reset ignored) s = .next s.resetCycle :=
  rfl

/-- The queue is empty at power-on: both cursors stand at 0 (R21, R24). -/
@[simp] theorem State.reset_empty : State.reset.block.empty = true :=
  (Block.empty_iff _).2 (State.reset_wr.trans State.reset_rd.symm)

/-- RESET empties the queue of any block: both cursors return to 0 (R21, R85). -/
@[simp] theorem Block.reset_empty {N CW : Nat} (s : Block N CW) : s.reset.empty = true :=
  (Block.empty_iff _).2 (s.reset_wr.trans s.reset_rd.symm)

/-- Settles O16: the power-on block by its fields, and every block after RESET through the reset cycle. -/
theorem powerOnControlStateIsZero : Obligations.PowerOnControlStateIsZero := by
  unfold Obligations.PowerOnControlStateIsZero
  refine ⟨State.reset_rxIndex, State.reset_wr, State.reset_rd, State.reset_empty, fun ignored s => ?_⟩
  refine ⟨s.resetCycle, exec_reset ignored s, ?_⟩
  rw [State.resetCycle_block]
  exact ⟨s.block.reset_rxIndex, s.block.reset_wr, s.block.reset_rd, s.block.reset_empty⟩

end Sys2Proof.Machine
end

section
/-!
The packing of a record on the output port (20_memory.md R33).
-/

namespace Sys2Proof.Machine

/-- The bytes of a record split at place `k`: what stands before byte `k`, byte `k`, and the `N - k` bytes after it. -/
theorem record_toList_split {N : Nat} (rec : Record N) {k : Nat} (hk : k < N + 1) :
    rec.toList = rec.toList.take k ++ rec[k] :: rec.toList.drop (k + 1) := by
  have hlen : k < rec.toList.length := by rwa [Vector.length_toList]
  rw [← Vector.getElem_toList hlen, ← List.drop_eq_getElem_cons hlen, List.take_append_drop]

/-- The byte slice of the port at bit `8 (N - k)` is byte `k`: it is the base-256 digit with `N - k` bytes below it. -/
theorem pack_extractLsb' {N : Nat} (rec : Record N) {k : Nat} (hk : k < N + 1) :
    (pack rec).extractLsb' (8 * (N - k)) 8 = rec[k] := by
  have below : (rec.toList.drop (k + 1)).length = N - k := by
    rw [List.length_drop, Vector.length_toList, Nat.add_sub_add_right]
  have digit := beNat_digit (rec.toList.take k) (rec.toList.drop (k + 1)) rec[k]
  rw [← record_toList_split rec hk, below] at digit
  apply BitVec.eq_of_toNat_eq
  rw [BitVec.extractLsb'_toNat, pack_toNat, Nat.shiftRight_eq_div_pow, pow_mul]
  exact digit

/-- Unpacking undoes packing, byte by byte. -/
@[simp] theorem unpack_pack {N : Nat} (rec : Record N) : unpack (pack rec) = rec :=
  Vector.ext fun _ hk => (unpack_getElem _ hk).trans (pack_extractLsb' rec hk)

/-- Bit `i` of the port is bit `i % 8` of the byte received `i / 8` places before the last one. -/
theorem getLsbD_eq_unpack {N : Nat} (d : BitVec (8 * (N + 1))) {i : Nat} (hi : i < 8 * (N + 1)) :
    d.getLsbD i = (unpack d)[N - i / 8].getLsbD (i % 8) := by
  have slice : 8 * (N - (N - i / 8)) + i % 8 = i := by omega
  have inByte : i % 8 < 8 := Nat.mod_lt i (by decide)
  rw [unpack_getElem, BitVec.getLsbD_extractLsb', slice, decide_eq_true inByte, Bool.true_and]

/-- The bytes of the port determine all its bits. -/
theorem unpack_injective {N : Nat} {d e : BitVec (8 * (N + 1))} (h : unpack d = unpack e) : d = e :=
  BitVec.eq_of_getLsbD_eq fun i hi => by rw [getLsbD_eq_unpack d hi, getLsbD_eq_unpack e hi, h]

/-- Packing undoes unpacking: both ports carry the same bytes. -/
@[simp] theorem pack_unpack {N : Nat} (d : BitVec (8 * (N + 1))) : pack (unpack d) = d :=
  unpack_injective (unpack_pack (unpack d))

/-- Settles O6: R33's slice formula through the base-256 digits of the packed number, and the two inverse laws. -/
theorem portPacksFirstByteHighest : Obligations.PortPacksFirstByteHighest := by
  unfold Obligations.PortPacksFirstByteHighest
  exact ⟨rfl, fun _ => ⟨fun rec k => pack_extractLsb' rec k.isLt, unpack_pack, pack_unpack⟩⟩

end Sys2Proof.Machine
end

section
/-!
The opcode bytes of this hardware (30_encoding.md R54) and those left to the catch-all row (R56).
-/

namespace Sys2Proof.Machine
open Sys2Proof.Config (thisHardware)

/-- The catch-all row takes an opcode byte exactly when it is none of the four command opcodes (R56). -/
theorem unrecognizedOpcode_iff (c : Config) (op : Byte) : c.unrecognizedOpcode op = true ↔
    op ≠ c.opcHalt ∧ op ≠ c.opcAdjustSpeed ∧ op ≠ c.opcAdjustAngle ∧ op ≠ c.opcLaunch := by
  simp only [Config.unrecognizedOpcode, Bool.and_eq_true, bne_iff_ne, and_assoc]

/-- Below `0x05` this hardware's opcodes leave out `0x01` alone. -/
theorem not_command_opcode_iff (op : Byte) :
    (op ≠ 0x00 ∧ op ≠ 0x02 ∧ op ≠ 0x03 ∧ op ≠ 0x04) ↔ op = 0x01 ∨ 0x05 ≤ op := by
  constructor
  · rintro ⟨notHalt, notSpeed, notAngle, notLaunch⟩
    bv_omega
  · rintro (rfl | above)
    · decide
    · refine ⟨?_, ?_, ?_, ?_⟩ <;> bv_omega

/-- The four opcode values of this hardware are pairwise distinct (R54). -/
@[simp] theorem thisHardware_valid : thisHardware.valid = true := by
  decide

/-- Settles O7: the four values by definition, and the catch-all row as the bytes outside them. -/
theorem opcodeValuesOfThisHardware : Obligations.OpcodeValuesOfThisHardware := by
  unfold Obligations.OpcodeValuesOfThisHardware
  exact ⟨rfl, rfl, rfl, rfl, thisHardware_valid, fun op =>
    (unrecognizedOpcode_iff thisHardware op).trans (not_command_opcode_iff op)⟩

end Sys2Proof.Machine
end

section
/-!
The Frame Assembler's operations (40_frame_assembler.md): what a cycle does on its two sides, and what each instruction
leaves in `rx_buf`.
-/

namespace Sys2Proof.Machine
open Sys2Proof.Config (thisHardware)

variable {N CW : Nat}

/-! ### The instructions as cycles -/

/-- RXBYTE executes as one cycle that captures the byte (R59, R87). -/
@[simp] theorem exec_rxbyte (deqReq rxIdle : Bool) (b : Byte) (s : State) :
    exec (.rxbyte deqReq rxIdle b) s = .next (s.portCycle deqReq rxIdle (some b)) :=
  rfl

/-- IDLE without a byte executes as one cycle that captures none (R60, R87). -/
@[simp] theorem exec_idle (deqReq : Bool) (ignored : Byte) (s : State) :
    exec (.idle deqReq ignored) s = .next (s.portCycle deqReq true none) :=
  rfl

/-- ENQUEUE executed by itself changes the block alone (R69). -/
@[simp] theorem exec_enqueue (rec : Record thisHardware.N) (s : State) :
    exec (.enqueue rec) s = .next (s.setBlock (s.block.enqueue thisHardware rec)) :=
  rfl

/-! ### The consumer side of a cycle -/

/-- A cursor advances by one modulo `C` (R72). -/
theorem nextCursor_toNat (x : BitVec CW) : (nextCursor x).toNat = (x.toNat + 1) % 2 ^ CW := by
  simp [nextCursor]

/-- A cycle without RESET treats its dequeue request as R70 and R92 say, whatever the producer side does. -/
theorem State.portCycle_consumerSide (deqReq rxIdle : Bool) (byte : Option Byte) (s : State) :
    ConsumerSide deqReq s (s.portCycle deqReq rxIdle byte) := by
  unfold ConsumerSide
  cases deqReq with
  | false => simp [State.deqValid]
  | true =>
    rcases Block.tryDequeue_cases s.block with ⟨notEmpty, head, rd⟩ | ⟨isEmpty, head, rd⟩
    · have differ : s.block.wr ≠ s.block.rd := by simpa [Block.empty] using notEmpty
      simp [differ, head, rd, nextCursor_toNat, State.deqValid, State.deqData]
    · have same : s.block.wr = s.block.rd := (Block.empty_iff _).1 isEmpty
      simp [same, head, rd, State.deqValid]

/-! ### The producer side of a cycle -/

/-- ENQUEUE neither reads nor writes the in-progress record and the index (R69). -/
theorem Block.enqueue_setBuf_setIndex (c : Config) (rec buf : Record c.N) (i : Fin (c.N + 1)) (s : Block c.N c.CW) :
    ((s.setBuf buf).setIndex i).enqueue c rec = ((s.enqueue c rec).setBuf buf).setIndex i := by
  have sameFull : ((s.setBuf buf).setIndex i).full = s.full := rfl
  unfold Block.enqueue
  rw [sameFull]
  cases s.full <;> cases c.ovfAdvance <;> rfl

/-- A byte before the last of its frame is stored and counted, and the queue is not touched (R59). -/
theorem Block.rxByte_of_lt (c : Config) (b : Byte) {s : Block c.N c.CW} (h : s.rxIndex.val < c.N) :
    s.rxByte c b = (s.setBuf (s.bufWith b)).setIndex (s.rxIndex + 1) := by
  rcases Block.rxByte_cases c b s with ⟨complete, _, _⟩ | ⟨_, _, e⟩
  · rw [Block.completing_iff] at complete
    exact absurd (congrArg Fin.val complete) (Nat.ne_of_lt h)
  · exact e

/-- The last byte of a frame is stored, the index returns to 0, and the queue changes as by ENQUEUE of the buffer (R59,
R61). -/
theorem Block.rxByte_of_last (c : Config) (b : Byte) {s : Block c.N c.CW} (h : s.rxIndex.val = c.N) :
    s.rxByte c b = ((s.enqueue c (s.bufWith b)).setBuf (s.bufWith b)).setIndex 0 := by
  have complete : s.completing = true := (Block.completing_iff s).2 (Fin.ext h)
  rcases Block.rxByte_cases c b s with ⟨_, _, e⟩ | ⟨incomplete, _, _⟩
  · rw [e, Block.enqueue_setBuf_setIndex]
  · rw [complete] at incomplete
    cases incomplete

/-- The buffer with a byte at `rx_index`, when the index is known by its number. -/
theorem Block.bufWith_eq_set (s : Block N CW) (b : Byte) {k : Nat} (h : s.rxIndex.val = k) (hk : k < N + 1) :
    s.bufWith b = s.rxBuf.set k b hk := by
  subst h
  rfl

/-- An idle event after the byte changes the index alone (R60, R88). -/
theorem Block.producerSide_some (c : Config) (rxIdle : Bool) (b : Byte) (s : Block c.N c.CW) :
    s.producerSide c rxIdle (some b) =
      (s.rxByte c b).setIndex (if rxIdle then 0 else (s.rxByte c b).rxIndex) := by
  cases rxIdle <;> rfl

/-- The buffer after a cycle that captures a byte, with or without IDLE and TRYDEQUEUE beside it (R59, R67). -/
theorem State.portCycle_some_rxBuf (deqReq rxIdle : Bool) (b : Byte) (s : State) :
    (s.portCycle deqReq rxIdle (some b)).block.rxBuf = s.block.bufWith b := by
  simp [Block.producerSide_some]

/-- A byte of the buffer by its position, with the stored one told apart by `rx_index` (R59). -/
theorem Block.bufWith_getElem_fin (s : Block N CW) (b : Byte) (k : Fin (N + 1)) :
    (s.bufWith b)[k] = if k = s.rxIndex then b else s.rxBuf[k] := by
  simp only [Fin.getElem_fin, Block.bufWith_getElem, Fin.ext_iff, eq_comm]

/-- At a frame boundary IDLE has nothing to write (R60). -/
theorem Block.idle_of_boundary {s : Block N CW} (h : s.rxIndex = 0) : s.idle = s := by
  rw [Block.idle, ← h]
  rfl

/-- Everything an instruction can do to `rx_buf`: RXBYTE stores one byte, every other leaves it as it was (R67). -/
theorem exec_rxBuf_cases (i : Instr) (s : State) : ∃ t : State, exec i s = .next t ∧
    ((∃ deqReq rxIdle b, i = .rxbyte deqReq rxIdle b ∧ t.block.rxBuf = s.block.bufWith b) ∨
      t.block.rxBuf = s.block.rxBuf) := by
  cases i with
  | rxbyte deqReq rxIdle b =>
    exact ⟨_, exec_rxbyte deqReq rxIdle b s, .inl ⟨_, _, b, rfl, State.portCycle_some_rxBuf deqReq rxIdle b s⟩⟩
  | enqueue rec => exact ⟨_, exec_enqueue rec s, .inr (Block.enqueue_rxBuf thisHardware rec s.block)⟩
  | reset _ => exact ⟨_, rfl, .inr rfl⟩
  | idle _ _ => exact ⟨_, rfl, .inr rfl⟩
  | trydequeue _ => exact ⟨_, rfl, .inr rfl⟩
  | nop _ => exact ⟨_, rfl, .inr rfl⟩
  | halt _ => exact ⟨_, rfl, .inr rfl⟩
  | adjustSpeed _ _ _ => exact ⟨_, rfl, .inr rfl⟩
  | adjustAngle _ _ _ => exact ⟨_, rfl, .inr rfl⟩
  | launch _ _ => exact ⟨_, rfl, .inr rfl⟩
  | unrecognized _ _ => exact ⟨_, rfl, .inr rfl⟩

/-! ### The statements -/

/-- Settles O19: the cycle's producer side below and at index `N`, beside its consumer side. -/
theorem rxbyteStoresByteAndCompletesFrames : Obligations.RxbyteStoresByteAndCompletesFrames := by
  unfold Obligations.RxbyteStoresByteAndCompletesFrames
  intro deqReq rxIdle b s
  refine ⟨s.portCycle deqReq rxIdle (some b), exec_rxbyte deqReq rxIdle b s,
    State.portCycle_consumerSide deqReq rxIdle (some b) s, State.portCycle_inputs .., State.portCycle_calls ..,
    fun k => ?stored, fun below => ?accumulates, fun last => ?completes⟩
  case stored =>
    rw [State.portCycle_some_rxBuf]
    exact s.block.bufWith_getElem_fin b k
  case accumulates =>
    have advanced : (s.block.rxIndex + 1).val = s.block.rxIndex.val + 1 := Fin.val_add_one_of_lt below
    cases rxIdle <;> simp [Block.rxByte_of_lt thisHardware b below, advanced]
  case completes =>
    rw [← s.block.bufWith_eq_set b last]
    refine ⟨?_, _, exec_enqueue _ s, ?_⟩ <;>
      simp [Block.producerSide_some, Block.rxByte_of_last thisHardware b last]

/-- Settles O20: the cycle of IDLE on its two sides, and at index 0 nothing is left to change. -/
theorem idleForcesIndexToZero : Obligations.IdleForcesIndexToZero := by
  unfold Obligations.IdleForcesIndexToZero
  refine ⟨fun deqReq ignored s => ?_, fun ignored s boundary => ?_⟩
  · refine ⟨s.portCycle deqReq true none, exec_idle deqReq ignored s,
      State.portCycle_consumerSide deqReq true none s, ?_⟩
    simp
  · exact ⟨s.portCycle false true none, exec_idle false ignored s, Block.idle_of_boundary boundary⟩

/-- Settles O21: RXBYTE is the one case that stores a byte, and it stores it at `rx_index`. -/
theorem rxBufferChangedOnlyByRxbyte : Obligations.RxBufferChangedOnlyByRxbyte := by
  unfold Obligations.RxBufferChangedOnlyByRxbyte
  intro i s
  obtain ⟨t, exec_eq, ⟨deqReq, rxIdle, b, isRxbyte, stored⟩ | unchanged⟩ := exec_rxBuf_cases i s
  · refine ⟨t, exec_eq, fun notRxbyte => absurd isRxbyte (notRxbyte deqReq rxIdle b), fun k elsewhere => ?_⟩
    rw [stored, Block.bufWith_getElem_fin, if_neg elsewhere]
  · exact ⟨t, exec_eq, fun _ => unchanged, fun k _ => by rw [unchanged]⟩

end Sys2Proof.Machine
end

section
/-!
The rules of the Command Queue (41_command_queue.md): the cursors, ENQUEUE and TRYDEQUEUE in every case, and what each
instruction does to the block.
-/

namespace Sys2Proof.Machine
open Sys2Proof.Config (thisHardware)

variable {N CW : Nat}

/-! ### Cursors -/

/-- The explicit index mask of R72 is the implicit one of a `CW`-bit register. -/
theorem nextCursor_toNat_and_mask (x : BitVec CW) : (nextCursor x).toNat = (x.toNat + 1) &&& (2 ^ CW - 1) := by
  rw [nextCursor_toNat, Nat.and_two_pow_sub_one_eq_mod]

/-- The queue is full exactly when the masked successor of `wr` is `rd` (R21). -/
theorem Block.full_iff_and_mask (s : Block N CW) :
    s.full = true ↔ (s.wr.toNat + 1) &&& (2 ^ CW - 1) = s.rd.toNat := by
  rw [Block.full_iff, ← nextCursor_toNat_and_mask, BitVec.toNat_inj]

/-- An empty queue is not full (R69 corner (a)). -/
theorem Block.not_full_of_empty (hcw : 1 ≤ CW) {s : Block N CW} (h : s.empty = true) : s.full = false := by
  by_contra isFull
  rw [Bool.not_eq_false] at isFull
  rw [Block.not_empty_of_full hcw isFull] at h
  cases h

/-- The read cursor after TRYDEQUEUE is where it was or one further (R70, R72). -/
theorem Block.rdAfter_eq_or (s : Block N CW) : s.rdAfter = s.rd ∨ s.rdAfter = nextCursor s.rd := by
  rcases s.tryDequeue_cases with ⟨_, _, e⟩ | ⟨_, _, e⟩
  · exact .inr e
  · exact .inl e

/-! ### ENQUEUE and the producer side -/

/-- A dropped ENQUEUE leaves all but `wr`, which `OVF_ADVANCE` brings onto `rd` (R69). -/
theorem Block.enqueue_of_full (c : Config) (rec : Record c.N) {s : Block c.N c.CW} (h : s.full = true) :
    s.enqueue c rec = s.setWr (if c.ovfAdvance then s.rd else s.wr) := by
  have successor := (Block.full_iff s).1 h
  unfold Block.enqueue
  rw [if_pos h, successor]
  cases c.ovfAdvance <;> rfl

/-- ENQUEUE of the block, with fullness written through the mask (R69). -/
theorem Block.enqueue_spec (c : Config) (rec : Record c.N) (s : Block c.N c.CW) :
    ((s.wr.toNat + 1) &&& c.MASK ≠ s.rd.toNat →
      (s.enqueue c rec).qMem = Memory.writeSlot s.qMem s.wr rec ∧
      (s.enqueue c rec).wr.toNat = (s.wr.toNat + 1) &&& c.MASK) ∧
    ((s.wr.toNat + 1) &&& c.MASK = s.rd.toNat →
      (s.enqueue c rec).qMem = s.qMem ∧ (s.enqueue c rec).wr = if c.ovfAdvance then s.rd else s.wr) := by
  rw [ne_eq, ← s.full_iff_and_mask]
  constructor
  · intro notFull
    rw [Block.enqueue_of_not_full c rec (Bool.not_eq_true _ ▸ notFull)]
    exact ⟨rfl, nextCursor_toNat_and_mask s.wr⟩
  · intro isFull
    rw [Block.enqueue_of_full c rec isFull]
    exact ⟨rfl, rfl⟩

/-- The write cursor after ENQUEUE is where it was or one further (R69, R72). -/
theorem Block.enqueue_wr_eq_or (c : Config) (rec : Record c.N) (s : Block c.N c.CW) :
    (s.enqueue c rec).wr = s.wr ∨ (s.enqueue c rec).wr = nextCursor s.wr := by
  rcases Block.enqueue_cases c rec s with ⟨_, e⟩ | ⟨_, _, e⟩ | ⟨_, _, e⟩ <;> rw [e]
  · exact .inr rfl
  · exact .inr rfl
  · exact .inl rfl

/-- ENQUEUE changes one slot at most: that at `wr`, when it accepts its record (R82). -/
theorem Block.enqueue_slot_ne (c : Config) (rec : Record c.N) {s : Block c.N c.CW} {a : BitVec c.CW}
    (h : (s.enqueue c rec).slot a ≠ s.slot a) : a = s.wr ∧ s.full = false ∧ (s.enqueue c rec).slot a = rec := by
  cases isFull : s.full with
  | true => exact absurd (Block.enqueue_slot_of_full c rec isFull a) h
  | false =>
    have after := Block.enqueue_slot_of_not_full c rec isFull a
    split at after
    · rename_i atWr
      exact ⟨atWr.symm, rfl, after⟩
    · exact absurd after h

/-- RXBYTE moves the write cursor, if at all, one further (R59, R72). -/
theorem Block.rxByte_wr_eq_or (c : Config) (b : Byte) (s : Block c.N c.CW) :
    (s.rxByte c b).wr = s.wr ∨ (s.rxByte c b).wr = nextCursor s.wr := by
  rcases Block.rxByte_cases c b s with ⟨_, _, e⟩ | ⟨_, _, e⟩ <;> rw [e]
  · exact Block.enqueue_wr_eq_or c _ ((s.setBuf (s.bufWith b)).setIndex 0)
  · exact .inl rfl

/-- RXBYTE changes a slot only by completing a frame that ENQUEUE accepts (R59, R82). -/
theorem Block.rxByte_slot_ne (c : Config) (b : Byte) {s : Block c.N c.CW} {a : BitVec c.CW}
    (h : (s.rxByte c b).slot a ≠ s.slot a) :
    s.completing = true ∧ a = s.wr ∧ s.full = false ∧ (s.rxByte c b).slot a = s.bufWith b := by
  rcases Block.rxByte_cases c b s with ⟨complete, _, e⟩ | ⟨_, _, e⟩
  · rw [e] at h ⊢
    exact ⟨complete, Block.enqueue_slot_ne c _ h⟩
  · rw [e] at h
    exact absurd rfl h

/-- The write cursor after the producer side is where it was or one further (R87). -/
theorem Block.producerSide_wr_eq_or (c : Config) (rxIdle : Bool) (byte : Option Byte) (s : Block c.N c.CW) :
    (s.producerSide c rxIdle byte).wr = s.wr ∨ (s.producerSide c rxIdle byte).wr = nextCursor s.wr := by
  cases byte with
  | none => cases rxIdle <;> exact .inl rfl
  | some b => simpa only [Block.producerSide_some, Block.setIndex_wr] using Block.rxByte_wr_eq_or c b s

/-- A producer side that hands no record to ENQUEUE leaves the write cursor alone (R23, R59). -/
theorem Block.producerSide_wr_of_not_handed (c : Config) (rxIdle : Bool) {byte : Option Byte} {s : Block c.N c.CW}
    (h : byte.bind s.handedOver = none) : (s.producerSide c rxIdle byte).wr = s.wr := by
  cases byte with
  | none => cases rxIdle <;> rfl
  | some b =>
    rw [Block.producerSide_some, Block.setIndex_wr]
    rcases Block.rxByte_cases c b s with ⟨_, handed, _⟩ | ⟨_, _, e⟩
    · exact absurd (handed.symm.trans h) (Option.some_ne_none _)
    · rw [e]
      rfl

/-! ### The cursors and the slots after a cycle -/

/-- A cycle without RESET moves each cursor, if at all, one further (R72, R87). -/
theorem Block.cycle_cursors_eq_or (c : Config) (deqReq rxIdle : Bool) (byte : Option Byte) (s : Block c.N c.CW) :
    ((s.cycle c deqReq rxIdle byte).wr = s.wr ∨ (s.cycle c deqReq rxIdle byte).wr = nextCursor s.wr) ∧
    ((s.cycle c deqReq rxIdle byte).rd = s.rd ∨ (s.cycle c deqReq rxIdle byte).rd = nextCursor s.rd) := by
  refine ⟨Block.producerSide_wr_eq_or c rxIdle byte s, ?_⟩
  cases deqReq with
  | true => exact s.rdAfter_eq_or
  | false => exact .inl rfl

/-- Without a byte a cycle writes no slot, a dequeue included (R82). -/
theorem Block.cycle_none_slot (c : Config) (deqReq rxIdle : Bool) (s : Block c.N c.CW) (a : BitVec c.CW) :
    (s.cycle c deqReq rxIdle none).slot a = s.slot a := by
  cases rxIdle <;> rfl

/-- With a byte a cycle leaves in the slots what RXBYTE leaves there (R87). -/
theorem Block.cycle_some_slot (c : Config) (deqReq rxIdle : Bool) (b : Byte) (s : Block c.N c.CW) (a : BitVec c.CW) :
    (s.cycle c deqReq rxIdle (some b)).slot a = (s.rxByte c b).slot a := by
  cases rxIdle <;> rfl

/-! ### The instructions -/

/-- TRYDEQUEUE executes as one cycle with a dequeue request and nothing else (R70, R87). -/
@[simp] theorem exec_trydequeue (ignored : Byte) (s : State) :
    exec (.trydequeue ignored) s = .next (s.portCycle true false none) :=
  rfl

/-- Everything an instruction can do to the block (R85, R69, R87, R93). -/
theorem exec_block_cases {i : Instr} {s t : State} (h : exec i s = .next t) :
    (∃ ignored, i = .reset ignored ∧ t.block = s.block.reset) ∨
    (∃ rec, i = .enqueue rec ∧ t.block = s.block.enqueue thisHardware rec) ∨
    (∃ deqReq rxIdle b, i = .rxbyte deqReq rxIdle b ∧
      t.block = s.block.cycle thisHardware deqReq rxIdle (some b)) ∨
    (∃ deqReq rxIdle, t.block = s.block.cycle thisHardware deqReq rxIdle none) ∨
    t.block = s.block := by
  cases i with
  | reset ignored => cases h; exact .inl ⟨ignored, rfl, rfl⟩
  | enqueue rec => cases h; exact .inr (.inl ⟨rec, rfl, rfl⟩)
  | rxbyte deqReq rxIdle b => cases h; exact .inr (.inr (.inl ⟨deqReq, rxIdle, b, rfl, rfl⟩))
  | idle deqReq _ => cases h; exact .inr (.inr (.inr (.inl ⟨deqReq, true, rfl⟩)))
  | trydequeue _ => cases h; exact .inr (.inr (.inr (.inl ⟨true, false, rfl⟩)))
  | nop _ => cases h; exact .inr (.inr (.inr (.inl ⟨false, false, rfl⟩)))
  | halt _ => cases h; exact .inr (.inr (.inr (.inr rfl)))
  | adjustSpeed _ _ _ => cases h; exact .inr (.inr (.inr (.inr rfl)))
  | adjustAngle _ _ _ => cases h; exact .inr (.inr (.inr (.inr rfl)))
  | launch _ _ => cases h; exact .inr (.inr (.inr (.inr rfl)))
  | unrecognized _ _ => cases h; exact .inr (.inr (.inr (.inr rfl)))

/-- Executing an input vector is the reset cycle or one cycle with the vector's fields (R49, R85, R87). -/
theorem exec_decodeInput (w : BitVec 12) (s : State) : exec (decodeInput w) s = .next (
    if InputVector.rst w then s.resetCycle
    else s.portCycle (InputVector.deqReq w) (InputVector.rxIdle w) (InputVector.byte? w)) := by
  unfold decodeInput InputVector.byte?
  cases InputVector.rst w with
  | true => rfl
  | false =>
    cases InputVector.rxValid w with
    | true => rfl
    | false => cases InputVector.rxIdle w <;> cases InputVector.deqReq w <;> rfl

/-! ### The statements -/

/-- Settles O25: TRYDEQUEUE is a cycle whose producer side does nothing. -/
theorem trydequeueReturnsHead : Obligations.TrydequeueReturnsHead := by
  unfold Obligations.TrydequeueReturnsHead
  intro ignored s
  exact ⟨s.portCycle true false none, exec_trydequeue ignored s, s.portCycle_consumerSide true false none,
    rfl, rfl, rfl, rfl, rfl, rfl⟩

/-- Settles O29: the mask is the remainder by a power of two, and an instruction moves a cursor by one step at
most. -/
theorem cursorsOnlyAdvanceByOneModuloC : Obligations.CursorsOnlyAdvanceByOneModuloC := by
  unfold Obligations.CursorsOnlyAdvanceByOneModuloC
  refine ⟨fun c x => ⟨nextCursor_toNat_and_mask x, nextCursor_toNat x⟩, fun i s t notReset executed => ?_⟩
  rcases exec_block_cases executed with
    ⟨ignored, isReset, _⟩ | ⟨rec, _, e⟩ | ⟨deqReq, rxIdle, b, _, e⟩ | ⟨deqReq, rxIdle, e⟩ | e
  · exact absurd isReset (notReset ignored)
  · rw [e]
    exact ⟨Block.enqueue_wr_eq_or thisHardware rec s.block, .inl (Block.enqueue_rd thisHardware rec s.block)⟩
  · rw [e]
    exact Block.cycle_cursors_eq_or thisHardware deqReq rxIdle (some b) s.block
  · rw [e]
    exact Block.cycle_cursors_eq_or thisHardware deqReq rxIdle none s.block
  · rw [e]
    exact ⟨.inl rfl, .inl rfl⟩

/-- Settles O27: of all instructions only ENQUEUE, by itself or inside a completing RXBYTE, changes a slot. -/
theorem onlyAcceptedEnqueueWritesASlot : Obligations.OnlyAcceptedEnqueueWritesASlot := by
  unfold Obligations.OnlyAcceptedEnqueueWritesASlot
  intro i s t slot executed changed
  rcases exec_block_cases executed with
    ⟨_, _, e⟩ | ⟨rec, isEnqueue, e⟩ | ⟨deqReq, rxIdle, b, isRxbyte, e⟩ | ⟨deqReq, rxIdle, e⟩ | e <;>
    rw [e] at changed ⊢
  · exact absurd rfl changed
  · obtain ⟨atWr, notFull, stored⟩ := Block.enqueue_slot_ne thisHardware rec changed
    exact ⟨atWr, notFull, .inl (by rw [stored, isEnqueue])⟩
  · rw [Block.cycle_some_slot] at changed ⊢
    obtain ⟨complete, atWr, notFull, stored⟩ := Block.rxByte_slot_ne thisHardware b changed
    have atLast : s.block.rxIndex = Fin.last thisHardware.N := (Block.completing_iff s.block).1 complete
    refine ⟨atWr, notFull, .inr ⟨deqReq, rxIdle, b, isRxbyte, atLast, ?_⟩⟩
    rw [stored, Block.bufWith_eq_set s.block b (congrArg Fin.val atLast)]
    rfl
  · exact absurd (Block.cycle_none_slot thisHardware deqReq rxIdle s.block slot) changed
  · exact absurd rfl changed

/-- Settles O24: the block's ENQUEUE under every configuration, and on this hardware the memory it writes read back. -/
theorem enqueueAcceptsOrDrops : Obligations.EnqueueAcceptsOrDrops := by
  unfold Obligations.EnqueueAcceptsOrDrops
  constructor
  · intro rec s
    obtain ⟨accepts, drops⟩ := s.block.enqueue_spec thisHardware rec
    refine ⟨_, exec_enqueue rec s, fun room => ?_, drops, Block.enqueue_rxIndex .., Block.enqueue_rxBuf ..,
      Block.enqueue_rd .., rfl, rfl, rfl, rfl⟩
    obtain ⟨mem, wr⟩ := accepts room
    refine ⟨?_, fun a outside => ?_, wr⟩
    · rw [State.setBlock_block, Block.slot, mem, Memory.readSlot_writeSlot_same]
    · rw [State.setBlock_block, mem, Memory.read_writeSlot_outside _ _ _ outside]
  · intro c rec s
    obtain ⟨accepts, drops⟩ := s.enqueue_spec c rec
    exact ⟨accepts, drops, Block.enqueue_rxIndex c rec s, Block.enqueue_rxBuf c rec s, Block.enqueue_rd c rec s⟩

end Sys2Proof.Machine
end

section
/-!
The empty queue (41_command_queue.md R81): dequeue requests neither return nor change anything until a record is
accepted.
-/

namespace Sys2Proof.Machine

variable {N CW : Nat}

/-! ### An input vector with its dequeue request taken out -/

/-- The mask `0xBFF` clears bit 10 of a vector and keeps the eleven others (R47). -/
theorem getLsbD_and_0xBFF (w : InputVector) {i : Nat} (h : i < 12) :
    (w &&& 0xBFF).getLsbD i = (w.getLsbD i && decide (i ≠ 10)) := by
  have mask : (0xBFF : BitVec 12).getLsbD i = decide (i ≠ 10) := by decide +revert
  rw [BitVec.getLsbD_and, mask]

@[simp] theorem rst_and_0xBFF (w : InputVector) : InputVector.rst (w &&& 0xBFF) = InputVector.rst w :=
  (getLsbD_and_0xBFF w (by decide)).trans (Bool.and_true _)

@[simp] theorem deqReq_and_0xBFF (w : InputVector) : InputVector.deqReq (w &&& 0xBFF) = false :=
  (getLsbD_and_0xBFF w (by decide)).trans (Bool.and_false _)

@[simp] theorem rxIdle_and_0xBFF (w : InputVector) : InputVector.rxIdle (w &&& 0xBFF) = InputVector.rxIdle w :=
  (getLsbD_and_0xBFF w (by decide)).trans (Bool.and_true _)

@[simp] theorem rxValid_and_0xBFF (w : InputVector) : InputVector.rxValid (w &&& 0xBFF) = InputVector.rxValid w :=
  (getLsbD_and_0xBFF w (by decide)).trans (Bool.and_true _)

@[simp] theorem rxData_and_0xBFF (w : InputVector) : InputVector.rxData (w &&& 0xBFF) = InputVector.rxData w :=
  (BitVec.extractLsb'_and ..).trans BitVec.and_allOnes

@[simp] theorem byte?_and_0xBFF (w : InputVector) : InputVector.byte? (w &&& 0xBFF) = InputVector.byte? w := by
  rw [InputVector.byte?, InputVector.byte?, rxValid_and_0xBFF, rxData_and_0xBFF]

/-! ### One cycle on an empty queue -/

/-- An empty queue has no head (R70). -/
theorem Block.head?_of_empty {s : Block N CW} (h : s.empty = true) : s.head? = none := if_pos h

/-- On an empty queue TRYDEQUEUE leaves the read cursor (R70). -/
theorem Block.rdAfter_of_empty {s : Block N CW} (h : s.empty = true) : s.rdAfter = s.rd := if_pos h

/-- On an empty queue no cycle returns a record, whatever arrives in it (R81). -/
theorem Block.returned_of_empty (deqReq : Bool) {s : Block N CW} (h : s.empty = true) : s.returned deqReq = none := by
  cases deqReq with
  | true => exact Block.head?_of_empty h
  | false => rfl

theorem Block.outputOn_of_empty (w : InputVector) {s : Block N CW} (h : s.empty = true) : s.outputOn w = none := by
  rw [Block.outputOn, Block.returned_of_empty _ h, ite_self]

/-- On an empty queue a cycle with a dequeue request is the cycle without it (R81). -/
theorem Block.cycle_of_empty (c : Config) (deqReq rxIdle : Bool) (byte : Option Byte) {s : Block c.N c.CW}
    (h : s.empty = true) : s.cycle c deqReq rxIdle byte = s.cycle c false rxIdle byte := by
  unfold Block.cycle
  rw [Block.rdAfter_of_empty h, ite_self, ite_self]

theorem Block.onVector_of_empty (c : Config) (w : InputVector) {s : Block c.N c.CW} (h : s.empty = true) :
    s.onVector c w = s.onVector c (w &&& 0xBFF) := by
  simp only [Block.onVector, rst_and_0xBFF, deqReq_and_0xBFF, rxIdle_and_0xBFF, byte?_and_0xBFF,
    Block.cycle_of_empty c (InputVector.deqReq w) _ _ h]

/-- A cycle that hands no record to ENQUEUE leaves an empty queue empty (R81). -/
theorem Block.onVector_empty (c : Config) (w : InputVector) {s : Block c.N c.CW} (h : s.empty = true)
    (noRecord : s.handedOn w = none) : (s.onVector c w).empty = true := by
  unfold Block.handedOn at noRecord
  unfold Block.onVector
  cases reset : InputVector.rst w with
  | true => exact s.reset_empty
  | false =>
    rw [reset] at noRecord
    rw [if_neg Bool.false_ne_true, Block.cycle_of_empty c _ _ _ h, Block.empty_iff, Block.cycle_wr, Block.cycle_rd,
      Block.producerSide_wr_of_not_handed c _ noRecord]
    exact (Block.empty_iff s).1 h

/-! ### Input sequences on an empty queue -/

/-- Over cycles that hand no record to ENQUEUE an empty queue returns nothing and stays empty, and the requests have no
effect (R81). -/
theorem Block.run_of_empty (c : Config) (ws : List InputVector) (s : Block c.N c.CW) (h : s.empty = true)
    (noRecord : Block.handed c ws s = []) :
    Block.outputs c ws s = [] ∧ (Block.run c ws s).empty = true ∧
    Block.run c ws s = Block.run c (ws.map (· &&& 0xBFF)) s := by
  induction ws generalizing s with
  | nil => exact ⟨rfl, h, rfl⟩
  | cons w ws ih =>
    obtain ⟨now, later⟩ := List.append_eq_nil_iff.1 noRecord
    obtain ⟨outputs, empty, run⟩ :=
      ih (s.onVector c w) (Block.onVector_empty c w h (Option.toList_eq_nil_iff.1 now)) later
    refine ⟨?_, empty, ?_⟩
    · rw [Block.outputs, Block.outputOn_of_empty w h, outputs]
      rfl
    · rw [Block.run, run, List.map_cons, Block.run, ← Block.onVector_of_empty c w h]

/-- Settles O26: one call, one cycle with any vector, and whole sequences by induction. -/
theorem trydequeueOnEmptyIsIdempotent : Obligations.TrydequeueOnEmptyIsIdempotent := by
  unfold Obligations.TrydequeueOnEmptyIsIdempotent
  refine ⟨fun ignored s h => ⟨_, exec_trydequeue ignored s, ?_, ?_⟩,
    fun w s h => ⟨_, exec_decodeInput w s, ?_⟩, Block.run_of_empty⟩
  · rw [State.portCycle_block, Block.cycle_of_empty _ _ _ _ h]
    rfl
  · rw [State.deqValid, State.portCycle_deqOut, Block.returned_of_empty _ h]
    rfl
  · cases InputVector.rst w with
    | true => rfl
    | false =>
      rw [if_neg Bool.false_ne_true, State.deqValid, State.portCycle_deqOut, Block.returned_of_empty _ h]
      rfl

end Sys2Proof.Machine
end

section
/-!
The ring (41_command_queue.md R84): a simulation between a block and the same block moved round the ring of slots.
-/

namespace Sys2Proof.Machine
open Sys2Proof.Config (thisHardware)

variable {N CW : Nat}

/-! ### Alternations of ENQUEUE and TRYDEQUEUE -/

/-- On an empty queue ENQUEUE and then TRYDEQUEUE take both cursors one further (R69, R70). -/
theorem execAll_alternation (rec : Record thisHardware.N) (is : List Instr) {s : State} (h : s.block.empty = true) :
    ∃ t : State, execAll (.enqueue rec :: .trydequeue 0 :: is) s = execAll is t ∧
      t.block.wr = nextCursor s.block.wr ∧ t.block.rd = nextCursor s.block.rd := by
  have notFull := Block.not_full_of_empty thisHardware.CW_pos h
  have stored := Block.enqueue_of_not_full thisHardware rec notFull
  have wr : (s.block.enqueue thisHardware rec).wr = nextCursor s.block.wr := by rw [stored]; rfl
  have rd := Block.enqueue_rd thisHardware rec s.block
  have notEmpty : (s.block.enqueue thisHardware rec).empty ≠ true := by
    rw [ne_eq, Block.empty_iff, wr, rd, (Block.empty_iff _).1 h]
    exact nextCursor_ne thisHardware.CW_pos _
  refine ⟨_, rfl, wr, ?_⟩
  rcases (s.block.enqueue thisHardware rec).tryDequeue_cases with ⟨_, _, advanced⟩ | ⟨empty, _, _⟩
  · exact advanced.trans (congrArg nextCursor rd)
  · exact absurd empty notEmpty

/-- From an empty queue `k` alternations take the write cursor `k` further modulo `C` and leave the queue empty. -/
theorem execAll_alternations (recs : List (Record thisHardware.N)) (s : State) (h : s.block.empty = true) :
    ∃ t : State, execAll (recs.flatMap fun rec => [.enqueue rec, .trydequeue 0]) s = .next t ∧
      t.block.wr.toNat = (s.block.wr.toNat + recs.length) % thisHardware.C ∧ t.block.empty = true := by
  induction recs generalizing s with
  | nil => exact ⟨s, rfl, (Nat.mod_eq_of_lt s.block.wr.isLt).symm, h⟩
  | cons rec recs ih =>
    obtain ⟨u, first, wr, rd⟩ :=
      execAll_alternation rec (recs.flatMap fun rec => [.enqueue rec, .trydequeue 0]) h
    have empty : u.block.empty = true := by
      rw [Block.empty_iff, wr, rd, (Block.empty_iff _).1 h]
    obtain ⟨t, rest, cursor, drained⟩ := ih u empty
    refine ⟨t, first.trans rest, ?_, drained⟩
    rw [cursor, wr, nextCursor_toNat, Nat.mod_add_mod, List.length_cons]
    congr 1
    omega

/-! ### A block moved round the ring -/

/-- `t` is `s` with both cursors and all slots moved `k` places round the ring. -/
structure Block.Rotated (k : BitVec CW) (s t : Block N CW) : Prop where
  rxIndex : t.rxIndex = s.rxIndex
  rxBuf : t.rxBuf = s.rxBuf
  wr : t.wr = s.wr + k
  rd : t.rd = s.rd + k
  slot : ∀ a, t.slot (a + k) = s.slot a

/-- Advancing a cursor and moving it round the ring commute. -/
theorem nextCursor_add (x k : BitVec CW) : nextCursor (x + k) = nextCursor x + k := by
  simp only [nextCursor, BitVec.add_assoc, BitVec.add_comm k 1]

namespace Block.Rotated

variable {k : BitVec CW} {s t : Block N CW}

theorem empty (h : s.Rotated k t) : t.empty = s.empty := by
  rw [Bool.eq_iff_iff, Block.empty_iff, Block.empty_iff, h.wr, h.rd, BitVec.add_left_inj]

theorem full (h : s.Rotated k t) : t.full = s.full := by
  rw [Bool.eq_iff_iff, Block.full_iff, Block.full_iff, h.wr, h.rd, nextCursor_add, BitVec.add_left_inj]

theorem bufWith (h : s.Rotated k t) (b : Byte) : t.bufWith b = s.bufWith b := by
  simp only [Block.bufWith, h.rxIndex, h.rxBuf]

theorem setIndex (h : s.Rotated k t) (i : Fin (N + 1)) : (s.setIndex i).Rotated k (t.setIndex i) :=
  ⟨rfl, h.rxBuf, h.wr, h.rd, h.slot⟩

theorem setBuf (h : s.Rotated k t) (rec : Record N) : (s.setBuf rec).Rotated k (t.setBuf rec) :=
  ⟨h.rxIndex, rfl, h.wr, h.rd, h.slot⟩

theorem setWr (h : s.Rotated k t) (x : BitVec CW) : (s.setWr x).Rotated k (t.setWr (x + k)) :=
  ⟨h.rxIndex, h.rxBuf, rfl, h.rd, h.slot⟩

theorem setRd (h : s.Rotated k t) (x : BitVec CW) : (s.setRd x).Rotated k (t.setRd (x + k)) :=
  ⟨h.rxIndex, h.rxBuf, h.wr, rfl, h.slot⟩

/-- The same record stored in slots that correspond. -/
theorem writeSlot (h : s.Rotated k t) (a : BitVec CW) (rec : Record N) :
    (s.setMem (Memory.writeSlot s.qMem a rec)).Rotated k (t.setMem (Memory.writeSlot t.qMem (a + k) rec)) := by
  refine ⟨h.rxIndex, h.rxBuf, h.wr, h.rd, fun x => ?_⟩
  rw [Block.setMem_slot, Block.setMem_slot]
  by_cases e : a = x
  · rw [e, Memory.readSlot_writeSlot_same, Memory.readSlot_writeSlot_same]
  · rw [Memory.readSlot_writeSlot_other _ _ e,
      Memory.readSlot_writeSlot_other _ _ (mt (BitVec.add_left_inj k).1 e)]
    exact h.slot x

/-- The consumer side returns the same record (R70). -/
theorem returned (h : s.Rotated k t) (deqReq : Bool) : t.returned deqReq = s.returned deqReq := by
  simp only [Block.returned, Block.head?, h.empty, h.rd, h.slot]

theorem rdAfter (h : s.Rotated k t) : t.rdAfter = s.rdAfter + k := by
  unfold Block.rdAfter
  rw [h.empty, h.rd, nextCursor_add, apply_ite (· + k)]

end Block.Rotated

/-! ### The simulation -/

section
variable {c : Config} {k : BitVec c.CW} {s t : Block c.N c.CW}

/-- ENQUEUE keeps the rotation: both accept, or both drop (R69). -/
theorem Block.Rotated.enqueue (h : s.Rotated k t) (rec : Record c.N) :
    (s.enqueue c rec).Rotated k (t.enqueue c rec) := by
  unfold Block.enqueue
  rw [h.full, h.wr, nextCursor_add]
  cases s.full with
  | false => exact (h.writeSlot s.wr rec).setWr (nextCursor s.wr)
  | true =>
    cases c.ovfAdvance with
    | true => exact h.setWr (nextCursor s.wr)
    | false => exact h

/-- RXBYTE keeps the rotation: both complete the same frame, or neither completes one (R59). -/
theorem Block.Rotated.rxByte (h : s.Rotated k t) (b : Byte) : (s.rxByte c b).Rotated k (t.rxByte c b) := by
  unfold Block.rxByte Block.handedOver Block.completing
  rw [h.bufWith, h.rxIndex]
  have stored := h.setBuf (s.bufWith b)
  cases s.rxIndex == Fin.last c.N with
  | true => exact (stored.setIndex 0).enqueue (s.bufWith b)
  | false => exact stored.setIndex (s.rxIndex + 1)

/-- The producer side keeps the rotation (R87). -/
theorem Block.Rotated.producerSide (h : s.Rotated k t) (rxIdle : Bool) (byte : Option Byte) :
    (s.producerSide c rxIdle byte).Rotated k (t.producerSide c rxIdle byte) := by
  have thenIdle : ∀ {u v : Block c.N c.CW}, u.Rotated k v →
      (if rxIdle then u.idle else u).Rotated k (if rxIdle then v.idle else v) := by
    intro u v moved
    cases rxIdle with
    | true => exact moved.setIndex 0
    | false => exact moved
  cases byte with
  | none => exact thenIdle h
  | some b => exact thenIdle (h.rxByte b)

/-- A cycle without RESET keeps the rotation (R87). -/
theorem Block.Rotated.cycle (h : s.Rotated k t) (deqReq rxIdle : Bool) (byte : Option Byte) :
    (s.cycle c deqReq rxIdle byte).Rotated k (t.cycle c deqReq rxIdle byte) := by
  have rd : (if deqReq then t.rdAfter else t.rd) = (if deqReq then s.rdAfter else s.rd) + k := by
    rw [h.rdAfter, h.rd, apply_ite (· + k)]
  unfold Block.cycle
  rw [rd]
  exact (h.producerSide rxIdle byte).setRd _

theorem Block.Rotated.outputOn (h : s.Rotated k t) (w : InputVector) : t.outputOn w = s.outputOn w := by
  rw [Block.outputOn, Block.outputOn, h.returned]

theorem Block.Rotated.onVector (h : s.Rotated k t) {w : InputVector} (running : InputVector.rst w = false) :
    (s.onVector c w).Rotated k (t.onVector c w) := by
  rw [Block.onVector, Block.onVector, running]
  exact h.cycle _ _ _

end

/-- Over cycles without RESET a block moved round the ring returns the same records (R84). -/
theorem Block.Rotated.outputs (c : Config) {k : BitVec c.CW} (ws : List InputVector) {s t : Block c.N c.CW}
    (h : s.Rotated k t) (running : noReset ws = true) : Block.outputs c ws t = Block.outputs c ws s := by
  induction ws generalizing s t with
  | nil => rfl
  | cons w ws ih =>
    obtain ⟨now, later⟩ := Bool.and_eq_true_iff.1 running
    have noRst : InputVector.rst w = false := by simpa using now
    have next := h.onVector noRst
    rw [Block.outputs, Block.outputs, h.outputOn w, ih next later]

/-- Settles O42: the alternations from the reset state, whose cursors are 0, and the simulation over input sequences. -/
theorem ringPositionIsInvisible : Obligations.RingPositionIsInvisible := by
  unfold Obligations.RingPositionIsInvisible
  constructor
  · intro recs
    obtain ⟨t, run, wr, empty⟩ := execAll_alternations recs State.reset State.reset_empty
    have start : State.reset.block.wr.toNat = 0 := rfl
    rw [start, Nat.zero_add] at wr
    exact ⟨t, run, wr, (Block.empty_iff t.block).1 empty ▸ wr⟩
  · intro c ws k s t running rxIndex rxBuf wr rd slot
    exact Block.Rotated.outputs c ws ⟨rxIndex, rxBuf, wr, rd, slot⟩ running

end Sys2Proof.Machine
end

section
/-!
One cycle of the whole system (42_system_and_step.md): RESET, NOP, the output port, and the step function of R87.
-/

namespace Sys2Proof.Machine
open Sys2Proof.Config (thisHardware)

variable {N CW : Nat}

/-! ### An input vector executed -/

/-- A vector with `rst = 1` decodes to RESET with its eleven other bits as they stand (R49, R85). -/
theorem decodeInput_of_rst {w : InputVector} (h : InputVector.rst w = true) :
    decodeInput w = .reset (InputVector.belowRst w) :=
  if_pos h

/-- A cycle with `rst = 1` resets the block (R85). -/
theorem Block.onVector_of_rst (c : Config) {w : InputVector} (s : Block c.N c.CW) (h : InputVector.rst w = true) :
    s.onVector c w = s.reset :=
  if_pos h

/-- A cycle with `rst = 0` treats the vector's fields as R87 says. -/
theorem Block.onVector_of_running (c : Config) {w : InputVector} (s : Block c.N c.CW) (h : InputVector.rst w = false) :
    s.onVector c w = s.cycle c (InputVector.deqReq w) (InputVector.rxIdle w) (InputVector.byte? w) := by
  rw [Block.onVector, h, if_neg Bool.false_ne_true]

/-- Executing an input vector is the block's cycle and its output, and touches neither the inputs nor the calls (R87,
R92). -/
theorem exec_decodeInput_spec (w : InputVector) (s : State) : ∃ t : State, exec (decodeInput w) s = .next t ∧
    t.block = s.block.onVector thisHardware w ∧ t.deqOut = (s.block.outputOn w).map pack ∧
    t.inputs = s.inputs ∧ t.calls = s.calls := by
  refine ⟨_, exec_decodeInput w s, ?_⟩
  unfold Block.onVector Block.outputOn
  cases InputVector.rst w with
  | true => exact ⟨rfl, rfl, rfl, rfl⟩
  | false => exact ⟨rfl, rfl, rfl, rfl⟩

/-! ### RESET and NOP -/

/-- Settles O15: the reset cycle by its fields, which are those of power-on, and the decoder on bit 11. -/
theorem resetReturnsControlStateToZero : Obligations.ResetReturnsControlStateToZero := by
  unfold Obligations.ResetReturnsControlStateToZero
  refine ⟨fun ignored s => ⟨s.resetCycle, exec_reset ignored s, ?_⟩, fun w bit11 => ⟨_, decodeInput_of_rst bit11⟩⟩
  have port : s.resetCycle.deqValid = false := congrArg Option.isSome s.resetCycle_deqOut
  simp [port]

/-- NOP executes as one cycle with nothing selected (R86, R87). -/
@[simp] theorem exec_nop (ignored : Byte) (s : State) :
    exec (.nop ignored) s = .next (s.portCycle false false none) :=
  rfl

/-- A cycle with nothing selected leaves the block as it was (R86). -/
@[simp] theorem Block.cycle_nop (c : Config) (s : Block c.N c.CW) : s.cycle c false false none = s := rfl

/-- A control bit is 0 in a vector whose four control bits are 0 (R47). -/
theorem getLsbD_of_control_zero {v : InputVector} (h : v.extractLsb' 8 4 = 0) {i : Nat} (hi : i < 4) :
    v.getLsbD (8 + i) = false := by
  have bit := congrArg (fun x => x.getLsbD i) h
  simpa [BitVec.getLsbD_extractLsb', hi] using bit

/-- A vector whose four control bits are 0 changes no block (R86). -/
theorem Block.onVector_of_control_zero (c : Config) {v : InputVector} (h : v.extractLsb' 8 4 = 0)
    (s : Block c.N c.CW) : s.onVector c v = s := by
  have rst : InputVector.rst v = false := getLsbD_of_control_zero h (i := 3) (by decide)
  have deqReq : InputVector.deqReq v = false := getLsbD_of_control_zero h (i := 2) (by decide)
  have rxIdle : InputVector.rxIdle v = false := getLsbD_of_control_zero h (i := 1) (by decide)
  have rxValid : InputVector.rxValid v = false := getLsbD_of_control_zero h (i := 0) (by decide)
  rw [Block.onVector_of_running c s rst, deqReq, rxIdle, InputVector.byte?, rxValid]
  exact Block.cycle_nop c s

/-- A vector whose four control bits are 0 returns no record (R86, R92). -/
theorem Block.outputOn_of_control_zero {v : InputVector} (h : v.extractLsb' 8 4 = 0) (s : Block N CW) :
    s.outputOn v = none := by
  have deqReq : InputVector.deqReq v = false := getLsbD_of_control_zero h (i := 2) (by decide)
  rw [Block.outputOn, deqReq, Block.returned_false, ite_self]

/-- A NOP vector inserted into an input sequence changes neither the block reached nor the records returned (R86). -/
theorem Block.run_outputs_insert_nop (c : Config) {v : InputVector} (h : v.extractLsb' 8 4 = 0)
    (before after : List InputVector) (s : Block c.N c.CW) :
    Block.run c (before ++ v :: after) s = Block.run c (before ++ after) s ∧
    Block.outputs c (before ++ v :: after) s = Block.outputs c (before ++ after) s := by
  induction before generalizing s with
  | nil =>
    simp only [List.nil_append, Block.run, Block.outputs, Block.onVector_of_control_zero c h,
      Block.outputOn_of_control_zero h, Option.toList_none, and_self]
  | cons w before ih =>
    obtain ⟨run, outputs⟩ := ih (s.onVector c w)
    simp only [List.cons_append, Block.run, Block.outputs, run, outputs, and_self]

/-- Settles O18: NOP by itself, and its vectors within sequences by induction on what comes before. -/
theorem nopsMayBeInsertedAnywhere : Obligations.NopsMayBeInsertedAnywhere := by
  unfold Obligations.NopsMayBeInsertedAnywhere
  exact ⟨fun ignored s => ⟨_, exec_nop ignored s, Block.cycle_nop thisHardware s.block, rfl⟩,
    fun c _ before after s control => Block.run_outputs_insert_nop c control before after s⟩

/-! ### The output port -/

/-- The record returned as one formula over the request (R70, R87). -/
theorem Block.returned_eq_ite (deqReq : Bool) (s : Block N CW) :
    s.returned deqReq = if deqReq && !s.empty then some (s.slot s.rd) else none := by
  cases deqReq with
  | false => rfl
  | true => rcases s.tryDequeue_cases with ⟨empty, head, _⟩ | ⟨empty, head, _⟩ <;> simp [empty, head]

/-- A cycle returns the record at `rd` on a request of a non-empty queue outside RESET, and nothing otherwise (R92). -/
theorem Block.outputOn_eq_ite (w : InputVector) (s : Block N CW) : s.outputOn w =
    if InputVector.rst w = false ∧ InputVector.deqReq w = true ∧ s.wr ≠ s.rd then some (s.slot s.rd) else none := by
  unfold Block.outputOn
  cases InputVector.rst w with
  | true => simp
  | false => simp [Block.returned_eq_ite, Block.empty]

/-- The output of a cycle depends on two bits of its vector (R92). -/
theorem Block.outputOn_congr {w w' : InputVector} (rst : InputVector.rst w = InputVector.rst w')
    (deqReq : InputVector.deqReq w = InputVector.deqReq w') (s : Block N CW) : s.outputOn w = s.outputOn w' := by
  rw [Block.outputOn, Block.outputOn, rst, deqReq]

/-- Settles O13: the output port of a cycle is the packed output of the block, which R92's condition decides. -/
theorem outputsDependOnlyOnTheRequest : Obligations.OutputsDependOnlyOnTheRequest := by
  unfold Obligations.OutputsDependOnlyOnTheRequest
  constructor
  · intro w s
    obtain ⟨t, exec_eq, -, port, -⟩ := exec_decodeInput_spec w s
    rw [Block.outputOn_eq_ite] at port
    refine ⟨t, exec_eq, ?_⟩
    unfold State.deqValid State.deqData
    split at port
    case isTrue request => simp [port, request]
    case isFalse noRequest => simpa [port] using noRequest
  · intro w w' s t t' rst deqReq exec_eq exec_eq'
    obtain ⟨u, exec_u, -, port, -⟩ := exec_decodeInput_spec w s
    obtain ⟨u', exec_u', -, port', -⟩ := exec_decodeInput_spec w' s
    cases exec_eq.symm.trans exec_u
    cases exec_eq'.symm.trans exec_u'
    rw [port, port', Block.outputOn_congr rst deqReq]

/-! ### The fields of the block after a cycle -/

/-- Blocks are equal when their five fields are (R15). -/
theorem Block.eq_of_fields {s t : Block N CW} (rxIndex : s.rxIndex = t.rxIndex) (rxBuf : s.rxBuf = t.rxBuf)
    (wr : s.wr = t.wr) (rd : s.rd = t.rd) (qMem : s.qMem = t.qMem) : s = t := by
  cases s
  cases t
  cases rxIndex
  cases rxBuf
  cases wr
  cases rd
  cases qMem
  rfl

/-- The cursor update on numbers, with R72's mask. -/
theorem nextCursor_eq_ofNat_and_mask (x : BitVec CW) :
    nextCursor x = BitVec.ofNat CW ((x.toNat + 1) &&& (2 ^ CW - 1)) := by
  rw [← nextCursor_toNat_and_mask, BitVec.ofNat_toNat, BitVec.setWidth_eq]

/-- The write cursor after ENQUEUE as one formula over its three cases (R69). -/
theorem Block.enqueue_wr (c : Config) (rec : Record c.N) (s : Block c.N c.CW) :
    (s.enqueue c rec).wr = if !s.full || c.ovfAdvance then nextCursor s.wr else s.wr := by
  rcases Block.enqueue_cases c rec s with ⟨full, e⟩ | ⟨full, advance, e⟩ | ⟨full, advance, e⟩
  · simp [e, full]
  · simp [e, full, advance]
  · simp [e, full, advance]

/-- The memory after ENQUEUE: the record stored at `wr`, unless the queue is full (R69). -/
theorem Block.enqueue_qMem (c : Config) (rec : Record c.N) (s : Block c.N c.CW) :
    (s.enqueue c rec).qMem = if !s.full then Memory.writeSlot s.qMem s.wr rec else s.qMem := by
  rcases Block.enqueue_cases c rec s with ⟨full, e⟩ | ⟨full, _, e⟩ | ⟨full, _, e⟩ <;> simp [e, full]

section
variable (c : Config) (s : Block c.N c.CW) (b : Byte)

/-- The index after a byte: back to 0 at the end of a frame, else one further (R59). -/
theorem Block.rxByte_rxIndex : (s.rxByte c b).rxIndex = if s.completing then 0 else s.rxIndex + 1 := by
  rcases Block.rxByte_cases c b s with ⟨completing, _, e⟩ | ⟨completing, _, e⟩ <;> simp [e, completing]

/-- The write cursor after a byte: ENQUEUE's at the end of a frame, else as it was (R59, R69). -/
theorem Block.rxByte_wr : (s.rxByte c b).wr =
    if s.completing && (!s.full || c.ovfAdvance) then nextCursor s.wr else s.wr := by
  rcases Block.rxByte_cases c b s with ⟨completing, _, e⟩ | ⟨completing, _, e⟩
  · rw [e, Block.enqueue_setBuf_setIndex, completing, Bool.true_and]
    exact Block.enqueue_wr c _ s
  · simp [e, completing]

/-- The memory after a byte: ENQUEUE's at the end of a frame, else as it was (R59, R69). -/
theorem Block.rxByte_qMem : (s.rxByte c b).qMem =
    if s.completing && !s.full then Memory.writeSlot s.qMem s.wr (s.bufWith b) else s.qMem := by
  rcases Block.rxByte_cases c b s with ⟨completing, _, e⟩ | ⟨completing, _, e⟩
  · rw [e, Block.enqueue_setBuf_setIndex, completing, Bool.true_and]
    exact Block.enqueue_qMem c _ s
  · simp [e, completing]

/-! The producer side's fields as one formula each, over whether a byte `b` is captured (`v`) and `rx_idle` (R87, R88). -/

variable (rxIdle v : Bool)

theorem Block.producerSide_rxIndex : (s.producerSide c rxIdle (if v then some b else none)).rxIndex =
    if rxIdle || (v && s.completing) then 0 else if v then s.rxIndex + 1 else s.rxIndex := by
  cases v with
  | false => cases rxIdle <;> rfl
  | true => cases rxIdle <;> simp [Block.rxByte_rxIndex]

theorem Block.producerSide_rxBuf : (s.producerSide c rxIdle (if v then some b else none)).rxBuf =
    if v then s.bufWith b else s.rxBuf := by
  cases v with
  | false => cases rxIdle <;> rfl
  | true => simp [Block.producerSide_some]

theorem Block.producerSide_wr : (s.producerSide c rxIdle (if v then some b else none)).wr =
    if v && s.completing && (!s.full || c.ovfAdvance) then nextCursor s.wr else s.wr := by
  cases v with
  | false => cases rxIdle <;> rfl
  | true => simp [Block.producerSide_some, Block.rxByte_wr]

theorem Block.producerSide_qMem : (s.producerSide c rxIdle (if v then some b else none)).qMem =
    if v && s.completing && !s.full then Memory.writeSlot s.qMem s.wr (if v then s.bufWith b else s.rxBuf)
    else s.qMem := by
  cases v with
  | false => cases rxIdle <;> rfl
  | true => simp [Block.producerSide_some, Block.rxByte_qMem]

end

/-- The read cursor after a cycle as one formula over the request (R70, R87). -/
theorem Block.ite_rdAfter (deqReq : Bool) (s : Block N CW) :
    (if deqReq then s.rdAfter else s.rd) = if deqReq && !s.empty then nextCursor s.rd else s.rd := by
  cases deqReq with
  | false => rfl
  | true => rcases s.tryDequeue_cases with ⟨empty, _, rd⟩ | ⟨empty, _, rd⟩ <;> simp [empty, rd]

/-! ### The step function of the spec -/

/-- Completion as the test on numbers that R87's pseudocode makes (R59). -/
theorem Block.completing_eq_beq (s : Block N CW) : s.completing = (s.rxIndex.val == N) := by
  rw [Bool.eq_iff_iff, Block.completing_iff, beq_iff_eq, Fin.ext_iff, Fin.val_last]

/-- R87's pseudocode under `rst = 1`. -/
theorem reference_step_of_rst (c : Config) (s : Block c.N c.CW) {w : InputVector} (h : InputVector.rst w = true) :
    Sys2Proof.Reference.step c s w = (s.reset, none) :=
  if_pos h

/-- R87's pseudocode under `rst = 0`, with its conditions named by the predicates of R21 and R59. -/
theorem reference_step_of_running (c : Config) (s : Block c.N c.CW) {w : InputVector}
    (h : InputVector.rst w = false) :
    Sys2Proof.Reference.step c s w =
      ({ rxIndex :=
          if InputVector.rxIdle w || (InputVector.rxValid w && s.completing) then 0
          else if InputVector.rxValid w then s.rxIndex + 1 else s.rxIndex
         rxBuf := if InputVector.rxValid w then s.bufWith (InputVector.rxData w) else s.rxBuf
         wr := if InputVector.rxValid w && s.completing && (!s.full || c.ovfAdvance) then nextCursor s.wr else s.wr
         rd := if InputVector.deqReq w && !s.empty then nextCursor s.rd else s.rd
         qMem :=
          if InputVector.rxValid w && s.completing && !s.full then
            Memory.writeSlot s.qMem s.wr
              (if InputVector.rxValid w then s.bufWith (InputVector.rxData w) else s.rxBuf)
          else s.qMem },
        if InputVector.deqReq w && !s.empty then some (pack (s.slot s.rd)) else none) := by
  unfold InputVector.rst at h
  simp only [Sys2Proof.Reference.step, h, Block.full, nextCursor_eq_ofNat_and_mask, Block.completing_eq_beq]
  rfl

/-- One cycle of the block and its output are R87's pseudocode. -/
theorem Block.onVector_outputOn_eq_reference (c : Config) (w : InputVector) (s : Block c.N c.CW) :
    (s.onVector c w, (s.outputOn w).map pack) = Sys2Proof.Reference.step c s w := by
  cases rst : InputVector.rst w with
  | true =>
    rw [reference_step_of_rst c s rst, Block.onVector_of_rst c s rst, Block.outputOn, if_pos rst]
    rfl
  | false =>
    rw [reference_step_of_running c s rst]
    refine Prod.ext ?block ?port
    case block =>
      rw [Block.onVector_of_running c s rst]
      exact Block.eq_of_fields (Block.producerSide_rxIndex ..) (Block.producerSide_rxBuf ..)
        (Block.producerSide_wr ..) (Block.ite_rdAfter ..) (Block.producerSide_qMem ..)
    case port =>
      rw [Block.outputOn, rst, if_neg Bool.false_ne_true, Block.returned_eq_ite, apply_ite (Option.map pack)]
      rfl

/-- Settles O11: the block's cycle field by field against the pseudocode, and execution as that cycle. -/
theorem cycleIsTheSpecStepFunction : Obligations.CycleIsTheSpecStepFunction := by
  unfold Obligations.CycleIsTheSpecStepFunction
  refine ⟨Block.onVector_outputOn_eq_reference, fun w s => ?_⟩
  obtain ⟨t, exec_eq, block, port, inputs, calls⟩ := exec_decodeInput_spec w s
  refine ⟨t, exec_eq, ?_, inputs, calls⟩
  rw [block, port]
  exact Block.onVector_outputOn_eq_reference thisHardware w s.block

end Sys2Proof.Machine
end

section
/-!
The consumer's commands (43_dispatcher_context.md): what each calls, the command a record decodes to, and the calls that
dispatching it may issue.
-/

namespace Sys2Proof.Machine
open Sys2Proof.Config (thisHardware)

/-! ### The commands executed -/

/-- HALT issues its two calls in the order of the next free value (R96, R97). -/
@[simp] theorem exec_halt (ignored : List Byte) (s : State) :
    exec (.halt ignored) s = .next (s.issue (haltCalls thisHardware (Config.haltOrder s.draws))).draw :=
  rfl

/-- ADJUST_SPEED issues its one call (R98). -/
@[simp] theorem exec_adjustSpeed (motor : Byte) (speed : Half) (ignored : List Byte) (s : State) :
    exec (.adjustSpeed motor speed ignored) s = .next (s.issue [.setMotorSpeed motor speed]) :=
  rfl

/-- ADJUST_ANGLE issues its one call (R99). -/
@[simp] theorem exec_adjustAngle (servo : Byte) (angle : Half) (ignored : List Byte) (s : State) :
    exec (.adjustAngle servo angle ignored) s = .next (s.issue [.setServoAngle servo angle]) :=
  rfl

/-- LAUNCH issues its one call and leaves the consumer inside it (R100, R103). -/
@[simp] theorem exec_launch (reps : Byte) (ignored : List Byte) (s : State) :
    exec (.launch reps ignored) s = .next ((s.issue [.runFireSequence reps]).setConsumer (.firing reps)) :=
  rfl

/-- UNRECOGNIZED does nothing (R101). -/
@[simp] theorem exec_unrecognized (opcode : Byte) (ignored : List Byte) (s : State) :
    exec (.unrecognized opcode ignored) s = .next s :=
  rfl

/-- Issuing calls appends them and touches nothing else that a command could (R93, R102). -/
theorem State.issue_spec (s : State) (cs : List Call) : (s.issue cs).calls = s.calls ++ cs ∧
    (s.issue cs).block = s.block ∧ (s.issue cs).deqOut = s.deqOut ∧ (s.issue cs).inputs = s.inputs ∧
    (s.issue cs).consumer = s.consumer :=
  ⟨s.issue_calls cs, s.issue_block cs, s.issue_deqOut cs, s.issue_inputs cs, s.issue_consumer cs⟩

/-- HALT's calls are the two motors' in one of the two orders (R96, R97). -/
theorem haltCalls_eq_or (c : Config) (swap : Bool) :
    haltCalls c swap = [.setMotorSpeed c.motorIds[0] 0, .setMotorSpeed c.motorIds[1] 0] ∨
    haltCalls c swap = [.setMotorSpeed c.motorIds[1] 0, .setMotorSpeed c.motorIds[0] 0] := by
  cases swap with
  | false => exact .inl rfl
  | true => exact .inr rfl

/-! ### The operands of a command -/

/-- A big-endian field as the number of its two bytes (R55). -/
theorem be16_toNat (hi lo : Byte) : (be16 hi lo).toNat = 256 * hi.toNat + lo.toNat := by
  rw [be16, BitVec.toNat_append, ← Nat.shiftLeft_add_eq_or_of_lt lo.isLt, Nat.shiftLeft_eq, Nat.mul_comm]

/-- The speed or angle of a record is `256 rec[2] + rec[3]` (R55). -/
theorem Operand.value16_toNat (c : Config) (rec : Record c.N) : (Operand.value16 c rec).toNat =
    256 * (rec[2]'(c.index_le_three (by decide))).toNat + (rec[3]'(c.index_le_three (by decide))).toNat :=
  be16_toNat _ _

/-! ### The command a record decodes to -/

/-- The opcodes of a valid configuration, pair by pair (R54). -/
theorem opcodes_distinct {c : Config} (valid : c.valid = true) :
    (c.opcHalt ≠ c.opcAdjustSpeed ∧ c.opcHalt ≠ c.opcAdjustAngle ∧ c.opcHalt ≠ c.opcLaunch) ∧
    (c.opcAdjustSpeed ≠ c.opcAdjustAngle ∧ c.opcAdjustSpeed ≠ c.opcLaunch) ∧ c.opcAdjustAngle ≠ c.opcLaunch := by
  simpa [Config.valid] using valid

section
variable {c : Config} {rec : Record c.N}

theorem decodeRecord_of_opcHalt (opcode : rec[0] = c.opcHalt) :
    decodeRecord c rec = .halt (Operand.unusedFrom 1 rec) :=
  if_pos opcode

theorem decodeRecord_of_opcAdjustSpeed (valid : c.valid = true) (opcode : rec[0] = c.opcAdjustSpeed) :
    decodeRecord c rec =
      .adjustSpeed (Operand.selector c rec) (Operand.value16 c rec) (Operand.unusedFrom 4 rec) := by
  obtain ⟨⟨haltSpeed, -, -⟩, -, -⟩ := opcodes_distinct valid
  rw [decodeRecord, opcode, if_neg haltSpeed.symm, if_pos rfl]

theorem decodeRecord_of_opcAdjustAngle (valid : c.valid = true) (opcode : rec[0] = c.opcAdjustAngle) :
    decodeRecord c rec =
      .adjustAngle (Operand.selector c rec) (Operand.value16 c rec) (Operand.unusedFrom 4 rec) := by
  obtain ⟨⟨-, haltAngle, -⟩, ⟨speedAngle, -⟩, -⟩ := opcodes_distinct valid
  rw [decodeRecord, opcode, if_neg haltAngle.symm, if_neg speedAngle.symm, if_pos rfl]

theorem decodeRecord_of_opcLaunch (valid : c.valid = true) (opcode : rec[0] = c.opcLaunch) :
    decodeRecord c rec = .launch (Operand.selector c rec) (Operand.unusedFrom 2 rec) := by
  obtain ⟨⟨-, -, haltLaunch⟩, ⟨-, speedLaunch⟩, angleLaunch⟩ := opcodes_distinct valid
  rw [decodeRecord, opcode, if_neg haltLaunch.symm, if_neg speedLaunch.symm, if_neg angleLaunch.symm, if_pos rfl]

theorem decodeRecord_of_unrecognizedOpcode (opcode : c.unrecognizedOpcode rec[0] = true) :
    decodeRecord c rec = .unrecognized rec[0] (Operand.unusedFrom 1 rec) := by
  obtain ⟨notHalt, notSpeed, notAngle, notLaunch⟩ := (unrecognizedOpcode_iff c rec[0]).1 opcode
  rw [decodeRecord, if_neg notHalt, if_neg notSpeed, if_neg notAngle, if_neg notLaunch]

end

/-- The five ways of `Dispatch`: a record's command beside the calls that its opcode byte selects (R95). -/
theorem decodeRecord_possibleCalls_cases (c : Config) (rec : Record c.N) :
    (decodeRecord c rec = .halt (Operand.unusedFrom 1 rec) ∧
      possibleCalls c rec = [haltCalls c false, haltCalls c true]) ∨
    (decodeRecord c rec =
        .adjustSpeed (Operand.selector c rec) (Operand.value16 c rec) (Operand.unusedFrom 4 rec) ∧
      possibleCalls c rec = [[.setMotorSpeed (Operand.selector c rec) (Operand.value16 c rec)]]) ∨
    (decodeRecord c rec =
        .adjustAngle (Operand.selector c rec) (Operand.value16 c rec) (Operand.unusedFrom 4 rec) ∧
      possibleCalls c rec = [[.setServoAngle (Operand.selector c rec) (Operand.value16 c rec)]]) ∨
    (decodeRecord c rec = .launch (Operand.selector c rec) (Operand.unusedFrom 2 rec) ∧
      possibleCalls c rec = [[.runFireSequence (Operand.selector c rec)]]) ∨
    (decodeRecord c rec = .unrecognized rec[0] (Operand.unusedFrom 1 rec) ∧ possibleCalls c rec = [[]]) := by
  unfold decodeRecord possibleCalls
  split_ifs
  · exact .inl ⟨rfl, rfl⟩
  · exact .inr (.inl ⟨rfl, rfl⟩)
  · exact .inr (.inr (.inl ⟨rfl, rfl⟩))
  · exact .inr (.inr (.inr (.inl ⟨rfl, rfl⟩)))
  · exact .inr (.inr (.inr (.inr ⟨rfl, rfl⟩)))

/-- Every test of the decoder is on the opcode byte, so two records that agree there take the same way (R95). -/
theorem decodeRecord_tableRow_congr (c : Config) {rec rec' : Record c.N} (opcode : rec[0] = rec'[0]) :
    (decodeRecord c rec).tableRow = (decodeRecord c rec').tableRow := by
  unfold decodeRecord
  rw [opcode]
  split_ifs <;> rfl

/-! ### A record dispatched -/

/-- Either order of HALT's calls is among those that a HALT may issue (R97). -/
theorem haltCalls_mem (c : Config) (swap : Bool) : haltCalls c swap ∈ [haltCalls c false, haltCalls c true] := by
  cases swap <;> simp

/-- Dispatching a record issues calls that its opcode byte selects and leaves the block, the ports and the inputs (R93,
R95). -/
theorem exec_decodeRecord_spec (rec : Record thisHardware.N) (s : State) : ∃ (t : State) (cs : List Call),
    exec (decodeRecord thisHardware rec) s = .next t ∧ cs ∈ possibleCalls thisHardware rec ∧
      t.calls = s.calls ++ cs ∧ t.block = s.block ∧ t.deqOut = s.deqOut ∧ t.inputs = s.inputs := by
  rcases decodeRecord_possibleCalls_cases thisHardware rec with
    ⟨command, selected⟩ | ⟨command, selected⟩ | ⟨command, selected⟩ | ⟨command, selected⟩ | ⟨command, selected⟩ <;>
    rw [command, selected]
  case inl => exact ⟨_, _, exec_halt _ s, haltCalls_mem _ _, rfl, rfl, rfl, rfl⟩
  case inr.inl => exact ⟨_, _, exec_adjustSpeed _ _ _ s, List.mem_singleton_self _, rfl, rfl, rfl, rfl⟩
  case inr.inr.inl => exact ⟨_, _, exec_adjustAngle _ _ _ s, List.mem_singleton_self _, rfl, rfl, rfl, rfl⟩
  case inr.inr.inr.inl => exact ⟨_, _, exec_launch _ _ s, List.mem_singleton_self _, rfl, rfl, rfl, rfl⟩
  case inr.inr.inr.inr =>
    exact ⟨s, _, exec_unrecognized _ _ s, List.mem_singleton_self _, (List.append_nil _).symm, rfl, rfl, rfl⟩

/-! ### The statements -/

/-- Settles O49: the five ways of dispatch one by one, and the decoder's tests on the opcode byte alone. -/
theorem dispatchRoutesOnOpcodeAlone : Obligations.DispatchRoutesOnOpcodeAlone := by
  unfold Obligations.DispatchRoutesOnOpcodeAlone
  exact ⟨exec_decodeRecord_spec, fun _ _ opcode => decodeRecord_tableRow_congr thisHardware opcode⟩

/-- Settles O43: HALT issues its calls in one of the two orders, and the draw for the order is all it does besides. -/
theorem haltStopsBothMotors : Obligations.HaltStopsBothMotors := by
  unfold Obligations.HaltStopsBothMotors
  refine ⟨fun rec opcode => ⟨_, decodeRecord_of_opcHalt opcode⟩, fun ignored s => ⟨_, exec_halt ignored s, ?_⟩⟩
  obtain ⟨calls, frame⟩ := s.issue_spec (haltCalls thisHardware (Config.haltOrder s.draws))
  refine ⟨?_, frame⟩
  rw [State.draw_calls, calls]
  exact (haltCalls_eq_or thisHardware (Config.haltOrder s.draws)).imp (congrArg _) (congrArg _)

/-- Settles O44: execution issues the one call, and the decoder reads its operands at `rec[1]` and `rec[2]`, `rec[3]`. -/
theorem adjustSpeedCallsSetMotorSpeedOnce : Obligations.AdjustSpeedCallsSetMotorSpeedOnce := by
  unfold Obligations.AdjustSpeedCallsSetMotorSpeedOnce
  exact ⟨fun sel v ignored s => ⟨_, exec_adjustSpeed sel v ignored s, s.issue_spec _⟩, fun rec opcode =>
    ⟨_, _, decodeRecord_of_opcAdjustSpeed thisHardware_valid opcode, Operand.value16_toNat thisHardware rec⟩⟩

/-- Settles O45: execution issues the one call, and the decoder reads its operands at `rec[1]` and `rec[2]`, `rec[3]`. -/
theorem adjustAngleCallsSetServoAngleOnce : Obligations.AdjustAngleCallsSetServoAngleOnce := by
  unfold Obligations.AdjustAngleCallsSetServoAngleOnce
  exact ⟨fun sel v ignored s => ⟨_, exec_adjustAngle sel v ignored s, s.issue_spec _⟩, fun rec opcode =>
    ⟨_, _, decodeRecord_of_opcAdjustAngle thisHardware_valid opcode, Operand.value16_toNat thisHardware rec⟩⟩

/-- Settles O46: the decoder reads the count at `rec[1]`, and execution issues the one call before the consumer moves. -/
theorem launchRunsTheFireSequenceOnce : Obligations.LaunchRunsTheFireSequenceOnce := by
  unfold Obligations.LaunchRunsTheFireSequenceOnce
  intro reps ignored s
  obtain ⟨calls, block, port, inputs, -⟩ := s.issue_spec [.runFireSequence reps]
  refine ⟨?_, _, exec_launch reps ignored s, calls, block, port, inputs⟩
  rintro rec opcode rfl
  exact ⟨_, decodeRecord_of_opcLaunch thisHardware_valid opcode⟩

/-- Settles O47: a byte other than the four opcodes takes the decoder's last arm, whose meaning is the identity. -/
theorem unrecognizedOpcodeDoesNothing : Obligations.UnrecognizedOpcodeDoesNothing := by
  unfold Obligations.UnrecognizedOpcodeDoesNothing
  refine ⟨fun rec notHalt notSpeed notAngle notLaunch => ⟨_, decodeRecord_of_unrecognizedOpcode ?_⟩, exec_unrecognized⟩
  exact (unrecognizedOpcode_iff thisHardware rec[0]).2 ⟨notHalt, notSpeed, notAngle, notLaunch⟩

end Sys2Proof.Machine
end

section
/-!
Completion (60_exceptions.md): no operation raises an exception, so every instruction and every step answers a next state.
-/

namespace Sys2Proof.Machine

/-- Execution is total: each row's equation names the state it answers, with no premise on the state (R105). -/
theorem exec_completes (i : Instr) (s : State) : ∃ t : State, exec i s = .next t := by
  cases i with
  | reset ignored => exact ⟨_, exec_reset ignored s⟩
  | rxbyte deqReq rxIdle b => exact ⟨_, exec_rxbyte deqReq rxIdle b s⟩
  | idle deqReq ignored => exact ⟨_, exec_idle deqReq ignored s⟩
  | trydequeue ignored => exact ⟨_, exec_trydequeue ignored s⟩
  | nop ignored => exact ⟨_, exec_nop ignored s⟩
  | enqueue rec => exact ⟨_, exec_enqueue rec s⟩
  | halt ignored => exact ⟨_, exec_halt ignored s⟩
  | adjustSpeed motor speed ignored => exact ⟨_, exec_adjustSpeed motor speed ignored s⟩
  | adjustAngle servo angle ignored => exact ⟨_, exec_adjustAngle servo angle ignored s⟩
  | launch reps ignored => exact ⟨_, exec_launch reps ignored s⟩
  | unrecognized opcode ignored => exact ⟨_, exec_unrecognized opcode ignored s⟩

/-- Settles O10: instruction by instruction, and a step is the execution of one instruction because the decoder is total. -/
theorem everyOperationCompletes : Obligations.EveryOperationCompletes := by
  unfold Obligations.EveryOperationCompletes
  exact ⟨exec_completes, fun s => exec_completes (decode Config.thisHardware s.fetch) s.take⟩

end Sys2Proof.Machine
end

section
/-!
The queue as a list (41_command_queue.md section 3): its count and contents under every operation, and the
conservation law of one cycle.
-/

namespace Sys2Proof.Machine
open Sys2Proof.Config (thisHardware)

variable {N CW : Nat}

/-! ### The count -/

/-- Two cursors are at distance 0 exactly when they are equal. -/
theorem toNat_sub_eq_zero_iff (x y : BitVec CW) : (x - y).toNat = 0 ↔ x = y := by
  constructor
  · intro e
    exact sub_eq_zero.1 (BitVec.eq_of_toNat_eq (e.trans BitVec.toNat_zero.symm))
  · rintro rfl
    exact (congrArg BitVec.toNat (sub_self x)).trans BitVec.toNat_zero

theorem nextCursor_sub (x y : BitVec CW) : nextCursor x - y = nextCursor (x - y) := by
  unfold nextCursor
  ring

/-- A step that does not wrap round to 0 adds one. -/
theorem nextCursor_toNat_of_ne_zero {x : BitVec CW} (h : (nextCursor x).toNat ≠ 0) :
    (nextCursor x).toNat = x.toNat + 1 := by
  rw [nextCursor_toNat] at h ⊢
  refine Nat.mod_eq_of_lt (Nat.lt_of_le_of_ne x.isLt fun wraps => h ?_)
  rw [wraps, Nat.mod_self]

theorem Block.count_lt (s : Block N CW) : s.count < 2 ^ CW := (s.wr - s.rd).isLt

/-- The queue is empty exactly when its count is 0 (R21). -/
theorem Block.empty_iff_count (s : Block N CW) : s.empty = true ↔ s.count = 0 := by
  rw [Block.empty_iff, Block.count, toNat_sub_eq_zero_iff]

theorem Block.count_ne_zero {s : Block N CW} (h : s.empty = false) : s.count ≠ 0 := by
  rw [ne_eq, ← Block.empty_iff_count, h]
  exact Bool.false_ne_true

/-- Storing one more record in a queue that is not full adds one to the count (R73). -/
theorem Block.count_setWr_next {s : Block N CW} (h : s.full = false) :
    (s.setWr (nextCursor s.wr)).count = s.count + 1 := by
  have apart : (nextCursor s.wr - s.rd).toNat ≠ 0 := by
    rw [ne_eq, toNat_sub_eq_zero_iff, ← Block.full_iff, h]
    exact Bool.false_ne_true
  rw [nextCursor_sub] at apart
  exact (congrArg BitVec.toNat (nextCursor_sub s.wr s.rd)).trans (nextCursor_toNat_of_ne_zero apart)

/-- Taking a record from a queue that is not empty takes one from the count (R73). -/
theorem Block.count_setRd_next {s : Block N CW} (h : s.empty = false) :
    s.count = (s.setRd (nextCursor s.rd)).count + 1 := by
  have step : s.wr - s.rd = nextCursor (s.wr - nextCursor s.rd) := by
    unfold nextCursor
    ring
  have apart := s.count_ne_zero h
  rw [Block.count, step] at apart ⊢
  exact nextCursor_toNat_of_ne_zero apart

/-- The queue is full exactly when one record more would wrap the count round to 0 (R21). -/
theorem Block.full_iff_count (s : Block N CW) : s.full = true ↔ s.count + 1 = 2 ^ CW := by
  constructor
  · intro full
    have wraps : (nextCursor (s.wr - s.rd)).toNat = 0 := by
      rw [← nextCursor_sub, toNat_sub_eq_zero_iff, ← Block.full_iff]
      exact full
    rw [nextCursor_toNat] at wraps
    exact Nat.le_antisymm s.count_lt (Nat.le_of_dvd (Nat.succ_pos _) (Nat.dvd_of_mod_eq_zero wraps))
  · intro last
    by_contra notFull
    have more := Block.count_setWr_next (Bool.not_eq_true _ ▸ notFull)
    exact absurd (Block.count_lt _) (Nat.not_lt.2 (more.trans last).ge)

theorem Block.full_eq_of_cursors {s t : Block N CW} (wr : t.wr = s.wr) (rd : t.rd = s.rd) : t.full = s.full := by
  rw [Block.full, Block.full, wr, rd]

theorem Block.count_eq_of_cursors {s t : Block N CW} (wr : t.wr = s.wr) (rd : t.rd = s.rd) : t.count = s.count := by
  rw [Block.count, Block.count, wr, rd]

/-- The distance of two cursors when each takes one step or none, modulo `C` (R72, R73). -/
theorem toNat_sub_of_steps (hcw : 1 ≤ CW) (x y : BitVec CW) (p q : Bool) :
    ((if p then nextCursor x else x) - (if q then nextCursor y else y)).toNat =
      ((x - y).toNat + p.toNat + 2 ^ CW - q.toNat) % 2 ^ CW := by
  have less : (x - nextCursor y).toNat = ((x - y).toNat + 2 ^ CW - 1) % 2 ^ CW := by
    have one : (1 : BitVec CW).toNat = 1 := BitVec.toNat_one hcw
    rw [show x - nextCursor y = x - y - 1 by unfold nextCursor; ring, BitVec.toNat_sub', one,
      Nat.add_sub_assoc Nat.one_le_two_pow]
  have more : (nextCursor x - y).toNat = ((x - y).toNat + 1) % 2 ^ CW := by
    rw [nextCursor_sub, nextCursor_toNat]
  have both : nextCursor x - nextCursor y = x - y := by
    unfold nextCursor
    ring
  cases p <;> cases q <;> simp [less, more, both]

/-! ### Slots in a row -/

/-- The records in `n` slots from slot `a` on, round the ring. -/
def Block.slotsFrom (s : Block N CW) (a : BitVec CW) (n : Nat) : List (Record N) :=
  (List.range n).map fun j => s.slot (a + BitVec.ofNat CW j)

/-- `Q(s)` is the run of slots from `rd` on, as long as the count (41_command_queue.md section 3). -/
theorem Block.contents_eq_slotsFrom (s : Block N CW) : s.contents = s.slotsFrom s.rd s.count := rfl

@[simp] theorem Block.slotsFrom_length (s : Block N CW) (a : BitVec CW) (n : Nat) : (s.slotsFrom a n).length = n := by
  simp [Block.slotsFrom]

theorem Block.slotsFrom_succ (s : Block N CW) (a : BitVec CW) (n : Nat) :
    s.slotsFrom a (n + 1) = s.slot a :: s.slotsFrom (nextCursor a) n := by
  have shift (j : Nat) : a + BitVec.ofNat CW (j + 1) = nextCursor a + BitVec.ofNat CW j := by
    rw [BitVec.ofNat_add, nextCursor, BitVec.add_comm _ (BitVec.ofNat CW 1), BitVec.add_assoc]
    rfl
  simp [Block.slotsFrom, List.range_succ_eq_map, Function.comp_def, shift]

theorem Block.slotsFrom_succ_last (s : Block N CW) (a : BitVec CW) (n : Nat) :
    s.slotsFrom a (n + 1) = s.slotsFrom a n ++ [s.slot (a + BitVec.ofNat CW n)] := by
  simp [Block.slotsFrom, List.range_succ]

theorem Block.slotsFrom_congr {s t : Block N CW} {a : BitVec CW} {n : Nat}
    (h : ∀ j < n, t.slot (a + BitVec.ofNat CW j) = s.slot (a + BitVec.ofNat CW j)) :
    t.slotsFrom a n = s.slotsFrom a n :=
  List.map_congr_left fun j hj => h j (List.mem_range.1 hj)

/-! ### The contents -/

@[simp] theorem Block.contents_length (s : Block N CW) : s.contents.length = s.count := s.slotsFrom_length s.rd s.count

@[simp] theorem Block.contents_setIndex (s : Block N CW) (i : Fin (N + 1)) : (s.setIndex i).contents = s.contents := rfl
@[simp] theorem Block.contents_setBuf (s : Block N CW) (rec : Record N) : (s.setBuf rec).contents = s.contents := rfl
@[simp] theorem Block.contents_idle (s : Block N CW) : s.idle.contents = s.contents := rfl

theorem Block.contents_eq_nil_iff (s : Block N CW) : s.contents = [] ↔ s.empty = true := by
  rw [← List.length_eq_zero_iff, Block.contents_length, Block.empty_iff_count]

theorem Block.contents_of_empty {s : Block N CW} (h : s.empty = true) : s.contents = [] := s.contents_eq_nil_iff.2 h

/-- The slot at `rd` holds the oldest record, and one step of `rd` leaves the others (R70). -/
theorem Block.contents_of_not_empty {s : Block N CW} (h : s.empty = false) :
    s.contents = s.slot s.rd :: (s.setRd (nextCursor s.rd)).contents := by
  rw [Block.contents_eq_slotsFrom, Block.count_setRd_next h, Block.slotsFrom_succ]
  rfl

/-- TRYDEQUEUE returns the first of the contents (R70). -/
theorem Block.head?_eq_contents (s : Block N CW) : s.head? = s.contents.head? := by
  rcases s.tryDequeue_cases with ⟨empty, head, _⟩ | ⟨empty, head, _⟩
  · rw [head, Block.contents_of_not_empty empty, List.head?_cons]
  · rw [head, Block.contents_of_empty empty, List.head?_nil]

/-- TRYDEQUEUE leaves the others (R70). -/
theorem Block.contents_setRd_rdAfter (s : Block N CW) : (s.setRd s.rdAfter).contents = s.contents.tail := by
  rcases s.tryDequeue_cases with ⟨empty, _, rd⟩ | ⟨empty, _, rd⟩
  · rw [rd, Block.contents_of_not_empty empty, List.tail_cons]
  · rw [rd, Block.contents_of_empty empty, List.tail_nil]
    exact Block.contents_of_empty empty

/-- The place of the next record is `count` slots after `rd`. -/
theorem Block.rd_add_count (s : Block N CW) : s.rd + BitVec.ofNat CW s.count = s.wr := by
  rw [Block.count, BitVec.ofNat_toNat, BitVec.setWidth_eq]
  ring

/-- A slot of the range is not the one at `wr`. -/
theorem Block.wr_ne_of_lt_count (s : Block N CW) {j : Nat} (h : j < s.count) : s.wr ≠ s.rd + BitVec.ofNat CW j := by
  intro e
  have same : BitVec.ofNat CW s.count = BitVec.ofNat CW j := (BitVec.add_right_inj s.rd).1 (s.rd_add_count.trans e)
  have := congrArg BitVec.toNat same
  rw [BitVec.toNat_ofNat, BitVec.toNat_ofNat, Nat.mod_eq_of_lt s.count_lt,
    Nat.mod_eq_of_lt (h.trans s.count_lt)] at this
  omega

/-- An accepted ENQUEUE adds its record at the end (R69). -/
theorem Block.contents_enqueue_of_not_full (c : Config) (rec : Record c.N) {s : Block c.N c.CW} (h : s.full = false) :
    (s.enqueue c rec).contents = s.contents ++ [rec] := by
  have slot := Block.enqueue_slot_of_not_full c rec h
  have count : (s.enqueue c rec).count = s.count + 1 := by
    rw [← Block.count_setWr_next h, Block.enqueue_of_not_full c rec h]
    rfl
  rw [Block.contents_eq_slotsFrom, Block.contents_eq_slotsFrom, count, Block.enqueue_rd, Block.slotsFrom_succ_last,
    slot, if_pos s.rd_add_count.symm]
  congr 1
  exact Block.slotsFrom_congr fun j inside => by rw [slot, if_neg (s.wr_ne_of_lt_count inside)]

/-- A dropped ENQUEUE leaves the contents where the write cursor stays, and loses all where it advances (R69). -/
theorem Block.contents_enqueue_of_full (c : Config) (rec : Record c.N) {s : Block c.N c.CW} (h : s.full = true) :
    (s.enqueue c rec).contents = if c.ovfAdvance then [] else s.contents := by
  rw [Block.enqueue_of_full c rec h]
  cases c.ovfAdvance with
  | true => exact Block.contents_of_empty ((Block.empty_iff _).2 rfl)
  | false => rfl

/-! ### The conservation law of a cycle -/

/-- The producer side adds the record it accepts, unless an overflow advances the write cursor (R69, R87). -/
theorem Block.contents_producerSide (c : Config) (rxIdle : Bool) (byte : Option Byte) {s : Block c.N c.CW}
    (h : c.ovfAdvance = true → s.full = true → byte.bind s.handedOver = none) :
    (s.producerSide c rxIdle byte).contents =
      s.contents ++ (if s.full then none else byte.bind s.handedOver).toList := by
  cases byte with
  | none => cases rxIdle <;> simp
  | some b =>
    rw [Block.producerSide_some, Block.contents_setIndex, Option.bind_some]
    rcases Block.rxByte_cases c b s with ⟨_, handed, e⟩ | ⟨_, handed, e⟩
    · rw [e, handed, Block.enqueue_setBuf_setIndex, Block.contents_setIndex, Block.contents_setBuf]
      cases full : s.full with
      | false => exact Block.contents_enqueue_of_not_full c _ full
      | true =>
        have stays : c.ovfAdvance = false := by
          by_contra advances
          exact absurd (handed.symm.trans (h (Bool.not_eq_false _ ▸ advances) full)) (Option.some_ne_none _)
        simp [Block.contents_enqueue_of_full c _ full, stays]
    · simp [e, handed]

/-- The contents before and the record accepted are the record returned and the contents after, unless an overflow
advances the write cursor (41_command_queue.md section 3). -/
theorem Block.contents_cycle (c : Config) (deqReq rxIdle : Bool) (byte : Option Byte) {s : Block c.N c.CW}
    (h : c.ovfAdvance = true → s.full = true → byte.bind s.handedOver = none) :
    s.contents ++ (if s.full then none else byte.bind s.handedOver).toList =
      (s.returned deqReq).toList ++ (s.cycle c deqReq rxIdle byte).contents := by
  have produced := Block.contents_producerSide c rxIdle byte h
  rw [← produced]
  have stays : (s.producerSide c rxIdle byte).setRd s.rd = s.producerSide c rxIdle byte := by
    rw [← Block.producerSide_rd c rxIdle byte s]
    rfl
  cases deqReq with
  | false => exact (congrArg Block.contents stays).symm
  | true =>
    rcases s.tryDequeue_cases with ⟨notEmpty, head, rd⟩ | ⟨_, head, rd⟩
    · rw [Block.contents_of_not_empty notEmpty] at produced
      have stillNotEmpty : (s.producerSide c rxIdle byte).empty = false := by
        rw [← Bool.not_eq_true, ← Block.contents_eq_nil_iff, produced]
        exact List.cons_ne_nil _ _
      have oldest := Block.contents_of_not_empty stillNotEmpty
      have sameOldest := (List.cons.inj (oldest.symm.trans produced)).1
      rw [oldest, sameOldest, Block.producerSide_rd, Block.returned_true, head, Block.cycle, if_pos rfl, rd]
      rfl
    · rw [Block.returned_true, head, Block.cycle, if_pos rfl, rd, stays]
      rfl

/-! ### One input vector -/

theorem Block.handedOn_of_running {w : InputVector} (s : Block N CW) (h : InputVector.rst w = false) :
    s.handedOn w = (InputVector.byte? w).bind s.handedOver := by
  rw [Block.handedOn, h, if_neg Bool.false_ne_true]

theorem Block.outputOn_of_running {w : InputVector} (s : Block N CW) (h : InputVector.rst w = false) :
    s.outputOn w = s.returned (InputVector.deqReq w) := by
  rw [Block.outputOn, h, if_neg Bool.false_ne_true]

/-- An overflow is a record handed over on a full queue (R107). -/
theorem Block.overflowsOn_eq_false_iff (w : InputVector) (s : Block N CW) :
    s.overflowsOn w = false ↔ (s.full = true → s.handedOn w = none) := by
  unfold Block.overflowsOn
  cases s.full <;> cases s.handedOn w <;> simp

/-- The conservation law of the queue over one input vector (41_command_queue.md section 3). -/
theorem Block.contents_onVector (c : Config) {w : InputVector} {s : Block c.N c.CW}
    (running : InputVector.rst w = false) (h : c.ovfAdvance = true → s.overflowsOn w = false) :
    s.contents ++ (s.acceptedOn w).toList = (s.outputOn w).toList ++ (s.onVector c w).contents := by
  simp only [Block.overflowsOn_eq_false_iff, s.handedOn_of_running running] at h
  rw [Block.acceptedOn, s.handedOn_of_running running, s.outputOn_of_running running, s.onVector_of_running c running]
  exact Block.contents_cycle c _ _ _ h

/-- A record is handed over when the byte captured is the last of its frame (R59). -/
theorem Block.handedOn_isSome {w : InputVector} (s : Block N CW) (running : InputVector.rst w = false) :
    (s.handedOn w).isSome = (InputVector.rxValid w && s.completing) := by
  rw [s.handedOn_of_running running, InputVector.byte?]
  cases InputVector.rxValid w <;> simp [Block.handedOver, apply_ite Option.isSome]

/-- A record is returned when the request meets a queue that is not empty (R70). -/
theorem Block.outputOn_isSome {w : InputVector} (s : Block N CW) (running : InputVector.rst w = false) :
    (s.outputOn w).isSome = (InputVector.deqReq w && !s.empty) := by
  rw [s.outputOn_of_running running, Block.returned_eq_ite]
  simp [apply_ite Option.isSome]

/-- The write cursor after a running cycle: it advances past a record handed over, unless an overflow leaves it (R69).
-/
theorem Block.onVector_wr (c : Config) {w : InputVector} (s : Block c.N c.CW) (running : InputVector.rst w = false) :
    (s.onVector c w).wr =
      if (s.handedOn w).isSome && (!s.full || c.ovfAdvance) then nextCursor s.wr else s.wr := by
  rw [s.handedOn_isSome running, s.onVector_of_running c running]
  exact Block.producerSide_wr ..

/-- The read cursor after a running cycle: it advances past a record returned (R70). -/
theorem Block.onVector_rd (c : Config) {w : InputVector} (s : Block c.N c.CW) (running : InputVector.rst w = false) :
    (s.onVector c w).rd = if (s.outputOn w).isSome then nextCursor s.rd else s.rd := by
  rw [s.outputOn_isSome running, s.onVector_of_running c running]
  exact Block.ite_rdAfter ..

/-! ### The statements -/

/-- Settles O30: the two flags through the distance of the cursors, which is below `C`. -/
theorem emptyAndFullAreCounts : Obligations.EmptyAndFullAreCounts := by
  unfold Obligations.EmptyAndFullAreCounts
  intro c s
  have slots : 1 ≤ c.C := Nat.one_le_two_pow
  have below : s.count < c.C := s.count_lt
  have full : s.full = true ↔ s.count + 1 = c.C := s.full_iff_count
  refine ⟨s.empty_iff_count, full.trans ?_, ?_, s.contents_length⟩ <;> omega

/-- Settles O31: each cursor takes one step or none, and the count is their distance. -/
theorem countFollowsAcceptAndDequeue : Obligations.CountFollowsAcceptAndDequeue := by
  unfold Obligations.CountFollowsAcceptAndDequeue
  intro c w s running
  rw [Block.count, Block.onVector_wr c s running, Block.onVector_rd c s running]
  exact toNat_sub_of_steps c.CW_pos s.wr s.rd _ _

/-- Settles O33: the conservation law of one cycle, by induction on the input sequence. -/
theorem queueIsFirstInFirstOut : Obligations.QueueIsFirstInFirstOut := by
  unfold Obligations.QueueIsFirstInFirstOut
  intro c ws
  induction ws with
  | nil => exact fun s _ _ => List.append_nil _
  | cons w ws ih =>
    intro s running fits
    obtain ⟨now, later⟩ := Bool.and_eq_true_iff.1 running
    have step := Block.contents_onVector c (w := w) (s := s) (by simpa using now) fun advances => by
      simpa using (Bool.and_eq_true_iff.1 (fits advances)).1
    have rest := ih (s.onVector c w) later fun advances => (Bool.and_eq_true_iff.1 (fits advances)).2
    rw [Block.accepted, Block.outputs, Block.run, ← List.append_assoc, step, List.append_assoc, rest, List.append_assoc]

end Sys2Proof.Machine
end

section
/-!
The queue at its limits (41_command_queue.md): draining, filling, overflow under both policies, and a byte and a
dequeue in one cycle (42_system_and_step.md R89).
-/

namespace Sys2Proof.Machine
open Sys2Proof.Config (thisHardware)

variable {N CW : Nat}

/-! ### Draining -/

/-- The vector `DEQ` takes one record and nothing else (R58, R70). -/
theorem Block.onVector_vecDeq (c : Config) (s : Block c.N c.CW) : s.onVector c vecDeq = s.setRd s.rdAfter := rfl

theorem Block.outputOn_vecDeq (s : Block N CW) : s.outputOn vecDeq = s.head? := rfl

/-- Settles O34: each dequeue takes the head off the contents, by induction on their number. -/
theorem drainReturnsContentsInOrder : Obligations.DrainReturnsContentsInOrder := by
  unfold Obligations.DrainReturnsContentsInOrder
  intro c n
  induction n with
  | zero => exact fun s => ⟨List.take_zero.symm, List.drop_zero.symm, rfl⟩
  | succ n ih =>
    intro s
    obtain ⟨outputs, contents, frame⟩ := ih (s.setRd s.rdAfter)
    rw [Block.contents_setRd_rdAfter] at outputs contents
    rw [List.replicate_succ, Block.outputs, Block.run, Block.onVector_vecDeq, Block.outputOn_vecDeq, outputs, contents,
      Block.head?_eq_contents]
    have restored := congrArg (Block.setRd · s.rd) frame
    refine ⟨?_, ?_, restored⟩ <;> cases s.contents <;> simp

/-! ### Filling -/

/-- Records that fit are held in the order of their ENQUEUEs (R69, R75). -/
theorem Block.contents_foldl_enqueue (c : Config) (recs : List (Record c.N)) {s : Block c.N c.CW}
    (fits : s.count + recs.length < c.C) :
    (recs.foldl (fun b rec => b.enqueue c rec) s).contents = s.contents ++ recs := by
  induction recs generalizing s with
  | nil => exact (List.append_nil _).symm
  | cons rec recs ih =>
    rw [List.length_cons] at fits
    have notFull : s.full = false := by
      rw [← Bool.not_eq_true, Block.full_iff_count]
      exact Nat.ne_of_lt (b := c.C) (by omega)
    have first := Block.contents_enqueue_of_not_full c rec notFull
    have count : (s.enqueue c rec).count = s.count + 1 := by
      rw [← Block.contents_length, first, List.length_append, Block.contents_length, List.length_singleton]
    rw [List.foldl_cons, ih (by omega), first, List.append_assoc, List.singleton_append]

/-- ENQUEUEs executed in a row are the block's, in the same order. -/
theorem execAll_enqueue (recs : List (Record thisHardware.N)) (s : State) : execAll (recs.map Instr.enqueue) s =
    .next (s.setBlock (recs.foldl (fun b rec => b.enqueue thisHardware rec) s.block)) := by
  induction recs generalizing s with
  | nil => rfl
  | cons rec recs ih => exact ih (s.setBlock (s.block.enqueue thisHardware rec))

/-- From an empty queue at most `C - 1` records are held, in order, and the count is their number (R75). -/
theorem Block.contents_foldl_enqueue_of_empty (c : Config) {recs : List (Record c.N)} {s : Block c.N c.CW}
    (empty : s.empty = true) (fits : recs.length ≤ c.C - 1) :
    (recs.foldl (fun b rec => b.enqueue c rec) s).contents = recs ∧
    (recs.foldl (fun b rec => b.enqueue c rec) s).count = recs.length := by
  have slots : 1 ≤ c.C := Nat.one_le_two_pow
  have contents := Block.contents_foldl_enqueue c recs (s := s) (by rw [s.empty_iff_count.1 empty]; omega)
  rw [Block.contents_of_empty empty, List.nil_append] at contents
  exact ⟨contents, by rw [← Block.contents_length, contents]⟩

/-- A count of `C - 1` is a full queue (R21). -/
theorem Block.full_iff_count_eq_sub (s : Block N CW) : s.full = true ↔ s.count = 2 ^ CW - 1 := by
  have slots : 1 ≤ 2 ^ CW := Nat.one_le_two_pow
  rw [Block.full_iff_count]
  omega

/-- Settles O32: records that fit are appended one by one, and on a full queue `OVF_ADVANCE` brings `wr` onto `rd`. -/
theorem usableCapacityIsOneLessThanSlots : Obligations.UsableCapacityIsOneLessThanSlots := by
  unfold Obligations.UsableCapacityIsOneLessThanSlots
  constructor
  · intro recs s empty fits
    obtain ⟨contents, count⟩ := Block.contents_foldl_enqueue_of_empty thisHardware empty fits
    refine ⟨_, execAll_enqueue recs s, contents, count, fun all rec => ⟨_, exec_enqueue rec _, ?_⟩⟩
    have full := (Block.full_iff_count_eq_sub _).2 (count.trans all)
    rw [State.setBlock_block, State.setBlock_block, Block.enqueue_of_full thisHardware rec full]
    exact ⟨(Block.empty_iff _).2 rfl, rfl⟩
  · intro c recs s empty fits
    obtain ⟨contents, count⟩ := Block.contents_foldl_enqueue_of_empty c empty fits
    exact ⟨contents, by rw [Block.full_iff_count_eq_sub, count]⟩

/-! ### Overflow -/

/-- A frame that completes on a full queue is dropped: of the queue only `wr` changes, and only under `OVF_ADVANCE`
(R59, R69). -/
theorem Block.producerSide_of_overflow (c : Config) (rxIdle : Bool) (b : Byte) {s : Block c.N c.CW}
    (full : s.full = true) (completing : s.completing = true) :
    s.producerSide c rxIdle (some b) =
      ((s.setWr (if c.ovfAdvance then s.rd else s.wr)).setBuf (s.bufWith b)).setIndex 0 := by
  have last : s.rxIndex.val = c.N := congrArg Fin.val ((Block.completing_iff s).1 completing)
  rw [Block.producerSide_some, Block.rxByte_of_last c b last, Block.enqueue_of_full c _ full]
  cases rxIdle <;> rfl

/-- Settles O35: the write cursor lands on `rd`, so the queue is empty and the next dequeue finds nothing. -/
theorem overflowAloneEmptiesTheQueue : Obligations.OverflowAloneEmptiesTheQueue := by
  unfold Obligations.OverflowAloneEmptiesTheQueue
  intro rxIdle b ignored s full completing
  have dropped : (s.portCycle false rxIdle (some b)).block =
      ((s.block.setWr s.block.rd).setBuf (s.block.bufWith b)).setIndex 0 := by
    rw [State.portCycle_block, Block.cycle, Block.producerSide_of_overflow thisHardware rxIdle b full completing]
    rfl
  have empty : (s.portCycle false rxIdle (some b)).block.empty = true := by
    rw [dropped]
    exact (Block.empty_iff _).2 rfl
  obtain ⟨u, next, unchanged, port⟩ :=
    trydequeueOnEmptyIsIdempotent.1 ignored (s.portCycle false rxIdle (some b)) empty
  have length : s.block.contents.length = thisHardware.C - 1 :=
    s.block.contents_length.trans (s.block.full_iff_count_eq_sub.1 full)
  exact ⟨_, u, exec_rxbyte false rxIdle b s, (congrArg Block.qMem dropped :), (congrArg Block.wr dropped :),
    (congrArg Block.rd dropped :), (congrArg Block.rxIndex dropped :), Block.contents_of_empty empty, length, next,
    port, unchanged⟩

/-- When both cursors of a full queue advance and no slot is written, the queue loses its head and gains what slot `wr`
held. -/
theorem Block.contents_of_full_advanced (hcw : 1 ≤ CW) {s t : Block N CW} (full : s.full = true) (wr : t.wr = s.rd)
    (rd : t.rd = nextCursor s.rd) (slot : ∀ a, t.slot a = s.slot a) :
    t.full = true ∧ t.contents = s.contents.tail ++ [s.slot s.wr] := by
  have stillFull : t.full = true := by rw [Block.full_iff, wr, rd]
  obtain ⟨n, count⟩ := Nat.exists_eq_succ_of_ne_zero (s.count_ne_zero (Block.not_empty_of_full hcw full))
  have sameCount : t.count = n + 1 :=
    (t.full_iff_count_eq_sub.1 stillFull).trans ((s.full_iff_count_eq_sub.1 full).symm.trans count)
  have last : nextCursor s.rd + BitVec.ofNat CW n = s.wr := by
    rw [← s.rd_add_count, count, Nat.succ_eq_add_one, BitVec.ofNat_add, nextCursor,
      BitVec.add_comm _ (BitVec.ofNat CW 1), ← BitVec.add_assoc]
    rfl
  refine ⟨stillFull, ?_⟩
  rw [Block.contents_eq_slotsFrom, Block.contents_eq_slotsFrom, sameCount, count, rd, Nat.succ_eq_add_one,
    Block.slotsFrom_succ s, List.tail_cons, Block.slotsFrom_congr (s := s) (fun _ _ => slot _),
    Block.slotsFrom_succ_last, last]

/-- Settles O36: both cursors advance, so the oldest record goes out and slot `wr` comes in as it stood. -/
theorem overflowWithDequeueAdmitsStaleRecord : Obligations.OverflowWithDequeueAdmitsStaleRecord := by
  unfold Obligations.OverflowWithDequeueAdmitsStaleRecord
  intro rxIdle b s full completing
  have notEmpty := Block.not_empty_of_full thisHardware.CW_pos full
  rcases s.block.tryDequeue_cases with ⟨_, head, rd⟩ | ⟨empty, _⟩
  · have dropped : (s.portCycle true rxIdle (some b)).block =
        (((s.block.setWr s.block.rd).setBuf (s.block.bufWith b)).setIndex 0).setRd (nextCursor s.block.rd) := by
      rw [State.portCycle_block, Block.cycle, Block.producerSide_of_overflow thisHardware rxIdle b full completing,
        if_pos rfl, rd]
      rfl
    have port : (s.portCycle true rxIdle (some b)).deqOut = some (pack (s.block.slot s.block.rd)) := by
      rw [State.portCycle_deqOut, Block.returned_true, head, Option.map_some]
    obtain ⟨stillFull, contents⟩ := Block.contents_of_full_advanced thisHardware.CW_pos
      (t := (s.portCycle true rxIdle (some b)).block) full (congrArg Block.wr dropped :) (congrArg Block.rd dropped :)
      (fun a => (congrArg (Block.slot · a) dropped :))
    refine ⟨_, exec_rxbyte true rxIdle b s, ?_, ?_, (congrArg Block.qMem dropped :), stillFull,
      (Block.full_iff_count_eq_sub _).1 stillFull, contents⟩
    · rw [State.deqValid, port, Option.isSome_some]
    · rw [State.deqData, port, Option.getD_some]
  · rw [notEmpty] at empty
    cases empty

/-- Only a running cycle overflows (R85, R107). -/
theorem Block.running_of_overflowsOn {w : InputVector} {s : Block N CW} (h : s.overflowsOn w = true) :
    InputVector.rst w = false ∧ s.full = true := by
  unfold Block.overflowsOn Block.handedOn at h
  cases rst : InputVector.rst w <;> simp_all

/-- Settles O37: without `OVF_ADVANCE` the conservation law has no exception, and a full queue accepts nothing. -/
theorem overflowWithoutAdvanceLosesOnlyTheNewest : Obligations.OverflowWithoutAdvanceLosesOnlyTheNewest := by
  unfold Obligations.OverflowWithoutAdvanceLosesOnlyTheNewest
  intro c w s stays overflow
  obtain ⟨running, full⟩ := Block.running_of_overflowsOn overflow
  have conserved := Block.contents_onVector c (s := s) running fun advances =>
    absurd (stays.symm.trans advances) Bool.false_ne_true
  rw [Block.acceptedOn, full, if_pos rfl, Option.toList_none, List.append_nil] at conserved
  refine ⟨?mem, ?wr, fun noRequest => ?alone, fun request => ?both⟩
  case mem =>
    rw [Block.onVector_of_running c s running, Block.cycle_qMem, InputVector.byte?, Block.producerSide_qMem]
    simp [full]
  case wr =>
    rw [Block.onVector_of_running c s running, Block.cycle_wr, InputVector.byte?, Block.producerSide_wr]
    simp [full, stays]
  case alone =>
    have nothing : s.outputOn w = none := by rw [s.outputOn_of_running running, noRequest, Block.returned_false]
    rw [nothing] at conserved
    exact ⟨conserved.symm, nothing⟩
  case both =>
    have head : s.outputOn w = s.contents.head? := by
      rw [s.outputOn_of_running running, request, Block.returned_true, Block.head?_eq_contents]
    rw [head] at conserved
    refine ⟨?_, head⟩
    cases held : s.contents with
    | nil => rw [held] at conserved; exact conserved.symm
    | cons _ _ => rw [held] at conserved; exact (List.cons.inj conserved).2.symm

/-! ### A byte and a dequeue in one cycle -/

/-- The read cursor advances exactly when a record is returned (R70). -/
theorem Block.rdAfter_eq_ite (s : Block N CW) : s.rdAfter = if s.head?.isSome then nextCursor s.rd else s.rd := by
  rcases s.tryDequeue_cases with ⟨_, head, rd⟩ | ⟨_, head, rd⟩ <;> rw [head, rd] <;> rfl

/-- The producer side adds every record it hands over, if no frame completes on a full queue (R69). -/
theorem Block.contents_producerSide_of_fits (c : Config) (rxIdle : Bool) (b : Byte) {s : Block c.N c.CW}
    (fits : s.completing = true → s.full = false) :
    (s.producerSide c rxIdle (some b)).contents = s.contents ++ (s.handedOver b).toList := by
  cases full : s.full with
  | false =>
    simpa [full] using Block.contents_producerSide c rxIdle (some b) (s := s) fun _ isFull => by simp [full] at isFull
  | true =>
    have nothing : s.handedOver b = none := if_neg fun completing => by simp [fits completing] at full
    simpa [nothing] using Block.contents_producerSide c rxIdle (some b) (s := s) fun _ _ => nothing

/-- What the producer side accepts goes behind what is held, so the consumer side sees the same head before and after it
(R89). -/
theorem Block.tryDequeue_of_producerSide (c : Config) (rxIdle : Bool) (b : Byte) {s : Block c.N c.CW}
    (h : s.completing = true → s.empty = false ∧ s.full = false) :
    (s.producerSide c rxIdle (some b)).head? = s.head? ∧ (s.producerSide c rxIdle (some b)).rdAfter = s.rdAfter := by
  have sameHead : (s.contents ++ (s.handedOver b).toList).head? = s.contents.head? := by
    cases empty : s.empty with
    | false => rw [Block.contents_of_not_empty empty, List.cons_append, List.head?_cons, List.head?_cons]
    | true =>
      have nothing : s.handedOver b = none := if_neg fun completing => by simp [(h completing).1] at empty
      rw [nothing, Option.toList_none, List.append_nil]
  have head : (s.producerSide c rxIdle (some b)).head? = s.head? := by
    rw [Block.head?_eq_contents, Block.head?_eq_contents,
      Block.contents_producerSide_of_fits c rxIdle b fun completing => (h completing).2, sameHead]
  exact ⟨head, by rw [Block.rdAfter_eq_ite, Block.rdAfter_eq_ite, head, Block.producerSide_rd]⟩

/-- The producer side reads of the read cursor only whether the queue is full, and that only at the end of a frame (R59,
R69). -/
theorem Block.producerSide_setRd (c : Config) (rxIdle : Bool) (b : Byte) {s : Block c.N c.CW} {x : BitVec c.CW}
    (h : s.completing = true → (s.setRd x).full = s.full) :
    (s.setRd x).producerSide c rxIdle (some b) = (s.producerSide c rxIdle (some b)).setRd x := by
  have sameIndex : (s.setRd x).completing = s.completing := rfl
  have sameBuf : (s.setRd x).bufWith b = s.bufWith b := rfl
  refine Block.eq_of_fields ?_ ?_ ?_ ?_ ?_
  · exact (Block.producerSide_rxIndex c (s.setRd x) b rxIdle true).trans
      (Block.producerSide_rxIndex c s b rxIdle true).symm
  · exact (Block.producerSide_rxBuf c (s.setRd x) b rxIdle true).trans (Block.producerSide_rxBuf c s b rxIdle true).symm
  · refine (Block.producerSide_wr c (s.setRd x) b rxIdle true).trans
      (Eq.trans ?_ (Block.producerSide_wr c s b rxIdle true).symm)
    cases completing : s.completing with
    | false => simp [sameIndex, completing]
    | true => simp [sameIndex, completing, h completing]
  · exact Block.producerSide_rd c rxIdle (some b) (s.setRd x)
  · refine (Block.producerSide_qMem c (s.setRd x) b rxIdle true).trans
      (Eq.trans ?_ (Block.producerSide_qMem c s b rxIdle true).symm)
    cases completing : s.completing with
    | false => simp [sameIndex, completing]
    | true => simp [sameIndex, sameBuf, completing, h completing]

/-- After a dequeue from a queue that is not empty there is room (R21). -/
theorem Block.not_full_setRd_rdAfter {s : Block N CW} (notEmpty : s.empty = false) :
    (s.setRd s.rdAfter).full = false := by
  rcases s.tryDequeue_cases with ⟨_, _, rd⟩ | ⟨empty, _⟩
  · have count := Block.count_setRd_next notEmpty
    have below := s.count_lt
    rw [← Bool.not_eq_true, Block.full_iff_count, rd]
    omega
  · rw [notEmpty] at empty
    cases empty

/-- Settles O38: the consumer side sees the same head before and after the byte, and the producer side the same room
before and after the dequeue. -/
theorem sameCycleEqualsEitherOrder : Obligations.SameCycleEqualsEitherOrder := by
  unfold Obligations.SameCycleEqualsEitherOrder
  intro rxIdle b ignored s h
  obtain ⟨head, rdAfter⟩ := Block.tryDequeue_of_producerSide thisHardware rxIdle b h
  have alone :
      s.block.cycle thisHardware false rxIdle (some b) = s.block.producerSide thisHardware rxIdle (some b) := by
    refine Block.eq_of_fields rfl rfl rfl ?_ rfl
    exact (Block.producerSide_rd thisHardware rxIdle (some b) s.block).symm
  have room (completing : s.block.completing = true) : (s.block.setRd s.block.rdAfter).full = s.block.full := by
    obtain ⟨notEmpty, notFull⟩ := h completing
    rw [Block.not_full_setRd_rdAfter notEmpty, notFull]
  refine ⟨_, _, _, _, _, exec_rxbyte true rxIdle b s, exec_rxbyte false rxIdle b s, exec_trydequeue ignored _,
    exec_trydequeue ignored s, exec_rxbyte false rxIdle b _, ?byteFirst, ?dequeueFirst, ?port, rfl⟩
  case byteFirst =>
    rw [State.portCycle_block, State.portCycle_block, State.portCycle_block, alone, Block.cycle, Block.cycle,
      if_pos rfl, if_pos rfl, Block.producerSide_none_false, rdAfter]
  case dequeueFirst =>
    have after : (s.portCycle true false none).block = s.block.setRd s.block.rdAfter := rfl
    rw [State.portCycle_block, State.portCycle_block, after, Block.cycle, Block.cycle,
      Block.producerSide_setRd thisHardware rxIdle b room]
    rfl
  case port =>
    rw [State.portCycle_deqOut, State.portCycle_deqOut, Block.returned_true, Block.returned_true, State.portCycle_block,
      alone, head]

/-- Settles O39: an empty queue has nothing to return, so what the cycle accepts is all that it holds after. -/
theorem arrivingRecordIsSeenNextCycle : Obligations.ArrivingRecordIsSeenNextCycle := by
  unfold Obligations.ArrivingRecordIsSeenNextCycle
  intro rxIdle b ignored s empty completing
  have notFull := Block.not_full_of_empty thisHardware.CW_pos empty
  have atLast : s.block.rxIndex.val = thisHardware.N := congrArg Fin.val ((Block.completing_iff s.block).1 completing)
  have handed : s.block.handedOver b = some (s.block.rxBuf.set thisHardware.N b) := by
    rw [Block.handedOver, if_pos completing, Block.bufWith_eq_set s.block b atLast]
  have contents : (s.portCycle true rxIdle (some b)).block.contents = [s.block.rxBuf.set thisHardware.N b] := by
    rw [State.portCycle_block, Block.cycle_of_empty thisHardware true rxIdle (some b) empty]
    have conserved := Block.contents_cycle thisHardware false rxIdle (some b) (s := s.block) fun _ full => by
      simp [notFull] at full
    simpa [Block.contents_of_empty empty, notFull, handed] using conserved.symm
  have port : (s.portCycle true rxIdle (some b)).deqOut = none := by
    rw [State.portCycle_deqOut, Block.returned_of_empty true empty, Option.map_none]
  have next : ((s.portCycle true rxIdle (some b)).portCycle true false none).deqOut =
      some (pack (s.block.rxBuf.set thisHardware.N b)) := by
    rw [State.portCycle_deqOut, Block.returned_true, Block.head?_eq_contents, contents]
    rfl
  refine ⟨_, _, exec_rxbyte true rxIdle b s, ?_, contents, exec_trydequeue ignored _, ?_, ?_, ?_⟩
  · rw [State.deqValid, port, Option.isSome_none]
  · rw [State.deqValid, next, Option.isSome_some]
  · rw [State.deqData, next, Option.getD_some]
  · rw [← Block.contents_eq_nil_iff, State.portCycle_block, Block.cycle, Block.producerSide_none_false, if_pos rfl,
      Block.contents_setRd_rdAfter, contents, List.tail_cons]

/-- Settles O40: the consumer side writes `rd` alone, after a producer side that never looked at the request. -/
theorem eachSideWritesOnlyItsOwnFields : Obligations.EachSideWritesOnlyItsOwnFields := by
  unfold Obligations.EachSideWritesOnlyItsOwnFields
  intro c dq dq' id id' byte byte' s
  exact ⟨rfl, rfl, rfl, rfl, rfl, rfl, rfl⟩

end Sys2Proof.Machine
end

section
/-!
The frame in progress as a list (40_frame_assembler.md): the bytes captured so far, their conservation law, and what a
complete frame becomes.
-/

namespace Sys2Proof.Machine

variable {N CW : Nat}

/-! ### The bytes captured -/

/-- The bytes of the current frame captured so far, in the order received (R16, R18). -/
def Block.captured (s : Block N CW) : List Byte := s.rxBuf.toList.take s.rxIndex.val

@[simp] theorem Block.captured_length (s : Block N CW) : s.captured.length = s.rxIndex.val := by
  rw [Block.captured, List.length_take, Vector.length_toList]
  exact Nat.min_eq_left (Nat.le_of_lt s.rxIndex.isLt)

theorem Block.captured_getElem? (s : Block N CW) {k : Fin (N + 1)} (h : k < s.rxIndex) :
    s.captured[k.val]? = some s.rxBuf[k] := by
  rw [Block.captured, List.getElem?_take_of_lt h]
  simp

theorem Block.captured_of_boundary {s : Block N CW} (h : s.rxIndex = 0) : s.captured = [] := by
  rw [← List.length_eq_zero_iff, Block.captured_length, h]
  rfl

/-- The buffer with the byte in place, up to that byte (R59). -/
theorem Block.bufWith_toList_take (s : Block N CW) (b : Byte) :
    (s.bufWith b).toList.take (s.rxIndex.val + 1) = s.captured ++ [b] := by
  have inside : s.rxIndex.val < s.rxBuf.toList.length := by
    rw [Vector.length_toList]
    exact s.rxIndex.isLt
  rw [Block.bufWith, Vector.toList_set, List.take_add_one, List.getElem?_set_self inside,
    List.take_set_of_le (Nat.le_refl _)]
  rfl

/-- The bytes captured before and the byte received are the record handed over and the bytes captured after (R59). -/
theorem Block.captured_rxByte (c : Config) (b : Byte) (s : Block c.N c.CW) :
    s.captured ++ [b] = (s.handedOver b).toList.flatMap Vector.toList ++ (s.rxByte c b).captured := by
  rw [← Block.bufWith_toList_take]
  rcases Block.rxByte_cases c b s with ⟨completing, handed, e⟩ | ⟨completing, handed, e⟩
  · have boundary : (s.rxByte c b).captured = [] := Block.captured_of_boundary (by rw [e]; simp)
    have last : s.rxIndex.val + 1 = (s.bufWith b).toList.length := by
      rw [(Block.completing_iff s).1 completing, Vector.length_toList]
      rfl
    rw [handed, boundary, last, List.take_length]
    simp
  · have notLast : s.rxIndex ≠ Fin.last c.N := by
      rw [ne_eq, ← Block.completing_iff, completing]
      exact Bool.false_ne_true
    have next : (s.rxIndex + 1).val = s.rxIndex.val + 1 := Fin.val_add_one_of_lt (Fin.lt_last_iff_ne_last.2 notLast)
    rw [handed, e, Block.captured, Block.setIndex_rxIndex, Block.setIndex_rxBuf, Block.setBuf_rxBuf, next]
    rfl

/-- The conservation law of the frame over one input vector without IDLE and RESET (R59, R61). -/
theorem Block.captured_onVector (c : Config) {w : InputVector} (s : Block c.N c.CW)
    (running : InputVector.rst w = false) (noIdle : InputVector.rxIdle w = false) :
    s.captured ++ (InputVector.byte? w).toList =
      (s.handedOn w).toList.flatMap Vector.toList ++ (s.onVector c w).captured := by
  rw [s.handedOn_of_running running, s.onVector_of_running c running, noIdle]
  cases InputVector.byte? w with
  | none => exact List.append_nil _
  | some b => exact s.captured_rxByte c b

/-- The conservation law of the frame over an input sequence. -/
theorem Block.captured_run (c : Config) (ws : List InputVector) (s : Block c.N c.CW) (running : noReset ws = true)
    (idleFree : noIdle ws = true) :
    s.captured ++ bytesOf ws = (Block.handed c ws s).flatMap Vector.toList ++ (Block.run c ws s).captured := by
  induction ws generalizing s with
  | nil => exact List.append_nil _
  | cons w ws ih =>
    obtain ⟨noRst, running⟩ := Bool.and_eq_true_iff.1 running
    obtain ⟨noRxIdle, idleFree⟩ := Bool.and_eq_true_iff.1 idleFree
    have step := s.captured_onVector c (w := w) (by simpa using noRst) (by simpa using noRxIdle)
    have bytes : bytesOf (w :: ws) = (InputVector.byte? w).toList ++ bytesOf ws := by
      rw [bytesOf, List.filterMap_cons]
      cases InputVector.byte? w <;> rfl
    rw [bytes, ← List.append_assoc, step, List.append_assoc, ih _ running idleFree, Block.handed, Block.run,
      List.flatMap_append, List.append_assoc]

/-! ### Records in a row of bytes -/

theorem length_flatMap_toList (recs : List (Record N)) :
    (recs.flatMap Vector.toList).length = (N + 1) * recs.length := by
  induction recs with
  | nil => rfl
  | cons rec recs ih =>
    rw [List.flatMap_cons, List.length_append, ih, Vector.length_toList, List.length_cons, Nat.mul_add_one,
      Nat.add_comm]

/-- Byte `k` of record `j` stands at place `(N + 1) j + k`. -/
theorem flatMap_toList_getElem? (recs : List (Record N)) {j : Nat} (hj : j < recs.length) (k : Fin (N + 1)) :
    (recs.flatMap Vector.toList)[(N + 1) * j + k.val]? = some recs[j][k] := by
  induction recs generalizing j with
  | nil => exact absurd hj (Nat.not_lt_zero j)
  | cons rec recs ih =>
    rw [List.flatMap_cons]
    cases j with
    | zero =>
      rw [List.getElem?_append_left (by simpa using Nat.le_of_lt_succ k.isLt)]
      simp
    | succ j =>
      have place : (N + 1) * (j + 1) + k.val = rec.toList.length + ((N + 1) * j + k.val) := by
        rw [Vector.length_toList, Nat.mul_add_one]
        omega
      rw [place, List.getElem?_append_right (Nat.le_add_right _ _), Nat.add_sub_cancel_left]
      exact ih (Nat.lt_of_succ_lt_succ hj)

/-- Settles O22: the bytes received are the records handed over and then the bytes still captured, fewer than `N + 1`.
-/
theorem bytesFormRecordsByAlignedGroupsOfSix : Obligations.BytesFormRecordsByAlignedGroupsOfSix := by
  unfold Obligations.BytesFormRecordsByAlignedGroupsOfSix
  intro c ws s running idleFree boundary
  have bytes := s.captured_run c ws running idleFree
  rw [Block.captured_of_boundary boundary, List.nil_append] at bytes
  have length : (bytesOf ws).length = (c.N + 1) * (Block.handed c ws s).length + (Block.run c ws s).rxIndex.val := by
    rw [bytes, List.length_append, length_flatMap_toList, Block.captured_length]
  have below := (Block.run c ws s).rxIndex.isLt
  have quotient : (bytesOf ws).length / (c.N + 1) = (Block.handed c ws s).length := by
    rw [length, Nat.mul_add_div (Nat.succ_pos _), Nat.div_eq_of_lt below, Nat.add_zero]
  have remainder : (bytesOf ws).length % (c.N + 1) = (Block.run c ws s).rxIndex.val := by
    rw [length, Nat.mul_add_mod, Nat.mod_eq_of_lt below]
  rw [quotient, remainder, bytes]
  refine ⟨rfl, fun j hj k => ?_, rfl, fun k hk => ?_⟩
  · rw [← flatMap_toList_getElem? _ hj k]
    refine List.getElem?_append_left ?_
    rw [length_flatMap_toList]
    have := Nat.mul_le_mul_left (c.N + 1) hj
    rw [Nat.mul_succ] at this
    omega
  · rw [← length_flatMap_toList, List.getElem?_append_right (Nat.le_add_right _ _), Nat.add_sub_cancel_left]
    exact Block.captured_getElem? _ hk

/-! ### A frame received without dequeues -/

/-- Over cycles without a dequeue request no record is returned (R92). -/
theorem Block.outputs_of_no_request (c : Config) (ws : List InputVector) (s : Block c.N c.CW)
    (h : ∀ w ∈ ws, InputVector.deqReq w = false) : Block.outputs c ws s = [] := by
  induction ws generalizing s with
  | nil => rfl
  | cons w ws ih =>
    obtain ⟨now, later⟩ := List.forall_mem_cons.1 h
    rw [Block.outputs, Block.outputOn, now, Block.returned_false, ite_self, ih _ later]
    rfl

theorem Block.outputs_append (c : Config) (vs ws : List InputVector) (s : Block c.N c.CW) :
    Block.outputs c (vs ++ ws) s = Block.outputs c vs s ++ Block.outputs c ws (Block.run c vs s) := by
  induction vs generalizing s with
  | nil => rfl
  | cons v vs ih => rw [List.cons_append, Block.outputs, Block.outputs, Block.run, ih, List.append_assoc]

/-- With room for all of them, and without a dequeue request, the records handed over are appended to the contents
(R69). -/
theorem Block.contents_run_of_room (c : Config) (ws : List InputVector) (s : Block c.N c.CW)
    (running : noReset ws = true) (noRequest : ∀ w ∈ ws, InputVector.deqReq w = false)
    (room : s.count + (Block.handed c ws s).length < 2 ^ c.CW) :
    (Block.run c ws s).contents = s.contents ++ Block.handed c ws s := by
  induction ws generalizing s with
  | nil => exact (List.append_nil _).symm
  | cons w ws ih =>
    obtain ⟨noRst, running⟩ := Bool.and_eq_true_iff.1 running
    obtain ⟨now, later⟩ := List.forall_mem_cons.1 noRequest
    rw [Block.handed, List.length_append] at room
    have noRst : InputVector.rst w = false := by simpa using noRst
    have fits : s.full = true → s.handedOn w = none := by
      intro full
      rw [Block.full_iff_count] at full
      rw [← Option.toList_eq_nil_iff, ← List.length_eq_zero_iff]
      omega
    have accepted : s.acceptedOn w = s.handedOn w := by
      rw [Block.acceptedOn]
      split
      · exact (fits ‹_›).symm
      · rfl
    have step := Block.contents_onVector c noRst fun _ => (s.overflowsOn_eq_false_iff w).2 fits
    rw [accepted, s.outputOn_of_running noRst, now, Block.returned_false, Option.toList_none, List.nil_append] at step
    have count : (s.onVector c w).count = s.count + (s.handedOn w).toList.length := by
      rw [← Block.contents_length, ← step, List.length_append, Block.contents_length]
    rw [Block.run, ih _ running later (by omega), ← step, Block.handed, List.append_assoc]

@[simp] theorem byte?_vecRx (b : Byte) : InputVector.byte? (vecRx b) = some b := by
  simp [InputVector.byte?, vecRx]

@[simp] theorem bytesOf_map_vecRx (bs : List Byte) : bytesOf (bs.map vecRx) = bs := by
  simp [bytesOf, List.filterMap_map]

theorem noReset_map_vecRx (bs : List Byte) : noReset (bs.map vecRx) = true := by simp [noReset, vecRx]

theorem noIdle_map_vecRx (bs : List Byte) : noIdle (bs.map vecRx) = true := by simp [noIdle, vecRx]

theorem deqReq_of_mem_map_vecRx {bs : List Byte} {w : InputVector} (h : w ∈ bs.map vecRx) :
    InputVector.deqReq w = false := by
  obtain ⟨b, _, rfl⟩ := List.mem_map.1 h
  exact InputVector.deqReq_ofFields ..

/-- The `N + 1` bytes of a record, received from a frame boundary, hand over that record and end at a boundary (R59,
R61). -/
theorem Block.handed_frame (c : Config) (rec : Record c.N) {s : Block c.N c.CW} (boundary : s.rxIndex = 0) :
    Block.handed c (rec.toList.map vecRx) s = [rec] ∧ (Block.run c (rec.toList.map vecRx) s).rxIndex = 0 := by
  have bytes := s.captured_run c (rec.toList.map vecRx) (noReset_map_vecRx _) (noIdle_map_vecRx _)
  obtain ⟨count, -, index, -⟩ := bytesFormRecordsByAlignedGroupsOfSix c (rec.toList.map vecRx) s
    (noReset_map_vecRx _) (noIdle_map_vecRx _) boundary
  rw [bytesOf_map_vecRx, Vector.length_toList] at count index
  rw [Nat.div_self (Nat.succ_pos _)] at count
  rw [Nat.mod_self] at index
  obtain ⟨r, handed⟩ := List.length_eq_one_iff.1 count
  have atBoundary : (Block.run c (rec.toList.map vecRx) s).rxIndex = 0 := Fin.ext index
  rw [Block.captured_of_boundary boundary, Block.captured_of_boundary atBoundary, bytesOf_map_vecRx, handed] at bytes
  have same : rec.toList = r.toList := by simpa using bytes
  exact ⟨handed.trans (congrArg ([·]) (Vector.toList_inj.1 same).symm), atBoundary⟩

/-- Settles O23: IDLE brings the index to a boundary, the frame hands over its record, and draining returns all that is
held. -/
theorem frameAfterIdleIsDelivered : Obligations.FrameAfterIdleIsDelivered := by
  unfold Obligations.FrameAfterIdleIsDelivered
  intro c rec s notFull
  have afterIdle : Block.run c (vecIdle :: rec.toList.map vecRx) s = Block.run c (rec.toList.map vecRx) s.idle := rfl
  obtain ⟨handed, boundary⟩ := Block.handed_frame c rec s.idle_rxIndex
  have room : s.count + 1 ≠ 2 ^ c.CW := by
    rw [ne_eq, ← Block.full_iff_count, notFull]
    exact Bool.false_ne_true
  have contents : (Block.run c (rec.toList.map vecRx) s.idle).contents = s.contents ++ [rec] := by
    rw [← handed]
    refine Block.contents_run_of_room c _ s.idle (noReset_map_vecRx _) (fun _ => deqReq_of_mem_map_vecRx) ?_
    rw [handed]
    exact Nat.lt_of_le_of_ne s.count_lt room
  have silent : Block.outputs c (vecIdle :: rec.toList.map vecRx) s = [] :=
    Block.outputs_of_no_request c _ s (List.forall_mem_cons.2 ⟨rfl, fun _ => deqReq_of_mem_map_vecRx⟩)
  refine ⟨afterIdle ▸ contents, afterIdle ▸ boundary, ?_⟩
  rw [Block.outputs_append, silent, afterIdle, (drainReturnsContentsInOrder c _ _).1, contents]
  exact List.take_of_length_le (by simp)

end Sys2Proof.Machine
end

section
/-!
Residue (10_state.md R25, R26): blocks that agree in their control state, the bytes captured and the contents cannot
be told apart.
-/

namespace Sys2Proof.Machine

variable {N CW : Nat}

/-! ### What is visible of a block, as two lists -/

/-- The captured bytes are equal one by one exactly when the lists are. -/
theorem Block.captured_eq_iff {s t : Block N CW} (rxIndex : s.rxIndex = t.rxIndex) :
    s.captured = t.captured ↔ ∀ k : Fin (N + 1), k < s.rxIndex → s.rxBuf[k] = t.rxBuf[k] := by
  constructor
  · intro same k hk
    have entry := (Block.captured_getElem? s hk).symm.trans (same ▸ Block.captured_getElem? t (rxIndex ▸ hk))
    exact Option.some_inj.1 entry
  · intro same
    refine List.ext_getElem? fun k => ?_
    rcases Nat.lt_or_ge k s.rxIndex.val with hk | hk
    · have inside : (⟨k, hk.trans s.rxIndex.isLt⟩ : Fin (N + 1)) < s.rxIndex := hk
      rw [Block.captured_getElem? s inside, same _ inside]
      exact (Block.captured_getElem? t (rxIndex ▸ inside)).symm
    · rw [List.getElem?_eq_none (s.captured_length ▸ hk), List.getElem?_eq_none (t.captured_length ▸ rxIndex ▸ hk)]

/-- The slots of the range are those at `rd` and the next `count - 1` places (R25). -/
theorem Block.inRange_iff (s : Block N CW) (slot : BitVec CW) :
    s.inRange slot ↔ ∃ j < s.count, slot = s.rd + BitVec.ofNat CW j := by
  constructor
  · intro inside
    refine ⟨(slot - s.rd).toNat, inside, ?_⟩
    rw [BitVec.ofNat_toNat, BitVec.setWidth_eq]
    ring
  · rintro ⟨j, hj, rfl⟩
    rw [Block.inRange, show s.rd + BitVec.ofNat CW j - s.rd = BitVec.ofNat CW j by ring, BitVec.toNat_ofNat,
      Nat.mod_eq_of_lt (hj.trans s.count_lt)]
    exact hj

/-- The slots of the range are equal one by one exactly when the contents are. -/
theorem Block.contents_eq_iff {s t : Block N CW} (wr : s.wr = t.wr) (rd : s.rd = t.rd) :
    s.contents = t.contents ↔ ∀ slot, s.inRange slot → s.slot slot = t.slot slot := by
  rw [Block.contents_eq_slotsFrom, Block.contents_eq_slotsFrom, ← rd, ← Block.count_eq_of_cursors wr rd,
    Block.slotsFrom, Block.slotsFrom, List.map_inj_left]
  simp only [List.mem_range, Block.inRange_iff]
  constructor
  · rintro same _ ⟨j, hj, rfl⟩
    exact same j hj
  · intro same j hj
    exact same _ ⟨j, hj, rfl⟩

/-- Two blocks look the same when they agree in the control state, the bytes captured and the contents. -/
theorem Block.sameVisible_iff (s t : Block N CW) : s.sameVisible t ↔
    s.rxIndex = t.rxIndex ∧ s.wr = t.wr ∧ s.rd = t.rd ∧ s.captured = t.captured ∧ s.contents = t.contents := by
  unfold Block.sameVisible
  constructor
  · rintro ⟨rxIndex, wr, rd, captured, slots⟩
    exact ⟨rxIndex, wr, rd, (Block.captured_eq_iff rxIndex).2 captured, (Block.contents_eq_iff wr rd).2 slots⟩
  · rintro ⟨rxIndex, wr, rd, captured, contents⟩
    exact ⟨rxIndex, wr, rd, (Block.captured_eq_iff rxIndex).1 captured, (Block.contents_eq_iff wr rd).1 contents⟩

/-! ### One cycle of two blocks that look the same -/

/-- A record handed over is the bytes captured and the byte received (R59). -/
theorem Block.handedOver_congr {s t : Block N CW} (rxIndex : s.rxIndex = t.rxIndex) (captured : s.captured = t.captured)
    (b : Byte) : s.handedOver b = t.handedOver b := by
  have sameCompleting : s.completing = t.completing := by rw [Block.completing, Block.completing, rxIndex]
  rw [Block.handedOver, Block.handedOver, ← sameCompleting]
  cases completing : s.completing with
  | false => rfl
  | true =>
    have last : s.rxIndex.val + 1 = N + 1 := by rw [(Block.completing_iff s).1 completing, Fin.val_last]
    have stored := (Block.bufWith_toList_take s b).trans (captured ▸ (Block.bufWith_toList_take t b).symm)
    rw [← rxIndex, last, List.take_of_length_le (by simp), List.take_of_length_le (by simp)] at stored
    rw [Vector.toList_inj.1 stored]

/-- The index after a running cycle: it returns to 0 on IDLE and past a record handed over (R59, R60, R88). -/
theorem Block.onVector_rxIndex (c : Config) {w : InputVector} (s : Block c.N c.CW)
    (running : InputVector.rst w = false) :
    (s.onVector c w).rxIndex =
      if InputVector.rxIdle w || (s.handedOn w).isSome then 0
      else if InputVector.rxValid w then s.rxIndex + 1 else s.rxIndex := by
  rw [s.handedOn_isSome running, s.onVector_of_running c running]
  exact Block.producerSide_rxIndex ..

/-- An overflow that advances `wr` without a dequeue request loses all the contents (R78). -/
theorem Block.contents_onVector_of_lost (c : Config) {w : InputVector} {s : Block c.N c.CW}
    (advances : c.ovfAdvance = true) (overflow : s.overflowsOn w = true) (noRequest : InputVector.deqReq w = false) :
    (s.onVector c w).contents = [] := by
  obtain ⟨running, full⟩ := Block.running_of_overflowsOn overflow
  obtain ⟨handed, -⟩ := Bool.and_eq_true_iff.1 overflow
  refine Block.contents_of_empty ((Block.empty_iff _).2 ?_)
  rw [Block.onVector_wr c s running, Block.onVector_rd c s running, s.outputOn_of_running running, noRequest, handed,
    advances, (Block.full_iff s).1 full]
  simp

/-- Settles O41: by the two conservation laws the lists after a cycle follow from the lists before it, and where the
queue's law fails nothing is left to see. -/
theorem residueIsNeverObserved : Obligations.ResidueIsNeverObserved := by
  unfold Obligations.ResidueIsNeverObserved
  intro c w s t same corner
  obtain ⟨rxIndex, wr, rd, captured, contents⟩ := (Block.sameVisible_iff s t).1 same
  have full : t.full = s.full := Block.full_eq_of_cursors wr.symm rd.symm
  have output : s.outputOn w = t.outputOn w := by
    simp only [Block.outputOn, Block.returned, Block.head?_eq_contents, contents]
  have handed : s.handedOn w = t.handedOn w := by
    rw [Block.handedOn, Block.handedOn, funext (Block.handedOver_congr rxIndex captured)]
  refine ⟨output, handed, (Block.sameVisible_iff _ _).2 ?_⟩
  cases running : InputVector.rst w with
  | true =>
    rw [s.onVector_of_rst c running, t.onVector_of_rst c running]
    refine ⟨rfl, rfl, rfl, ?_, ?_⟩
    · rw [Block.captured_of_boundary s.reset_rxIndex, Block.captured_of_boundary t.reset_rxIndex]
    · rw [Block.contents_of_empty s.reset_empty, Block.contents_of_empty t.reset_empty]
  | false =>
    have index : (s.onVector c w).rxIndex = (t.onVector c w).rxIndex := by
      rw [s.onVector_rxIndex c running, t.onVector_rxIndex c running, handed, rxIndex]
    refine ⟨index, ?wr, ?rd, ?captured, ?contents⟩
    case wr => rw [s.onVector_wr c running, t.onVector_wr c running, handed, full, wr]
    case rd => rw [s.onVector_rd c running, t.onVector_rd c running, output, rd]
    case captured =>
      cases idle : InputVector.rxIdle w with
      | true =>
        have boundary : (s.onVector c w).rxIndex = 0 := by rw [s.onVector_rxIndex c running, idle]; rfl
        rw [Block.captured_of_boundary boundary, Block.captured_of_boundary (index ▸ boundary)]
      | false =>
        have law := s.captured_onVector c running idle
        rw [captured, t.captured_onVector c running idle, ← handed] at law
        exact (List.append_cancel_left law).symm
    case contents =>
      have overflow : t.overflowsOn w = s.overflowsOn w := by rw [Block.overflowsOn, Block.overflowsOn, handed, full]
      by_cases lost : c.ovfAdvance = true ∧ s.overflowsOn w = true
      · obtain ⟨advances, overflows⟩ := lost
        rw [Block.contents_onVector_of_lost c advances overflows (corner advances overflows),
          Block.contents_onVector_of_lost c advances (overflow.trans overflows) (corner advances overflows)]
      · have fits (advances : c.ovfAdvance = true) : s.overflowsOn w = false :=
          Bool.not_eq_true _ ▸ fun overflows => lost ⟨advances, overflows⟩
        have law := Block.contents_onVector c running fits
        have law' := Block.contents_onVector c (s := t) running fun advances => overflow.trans (fits advances)
        have accepted : t.acceptedOn w = s.acceptedOn w := by rw [Block.acceptedOn, Block.acceptedOn, handed, full]
        rw [accepted, ← contents, law, ← output] at law'
        exact List.append_cancel_left law'

end Sys2Proof.Machine
end

section
/-!
The encoder and the decoder (30_encoding.md, 43_dispatcher_context.md section 1): two inverse maps between well-formed
instructions and their codes, and the words of `spec/opcode_table.json`.
-/

namespace Sys2Proof.Machine
open Sys2Proof.Config (thisHardware)

variable {N : Nat}

/-! ### Input vectors and their fields -/

theorem ofBool_getLsbD_eq_extractLsb' {n : Nat} (w : BitVec n) (i : Nat) :
    BitVec.ofBool (w.getLsbD i) = w.extractLsb' i 1 := by
  refine BitVec.eq_of_getLsbD_eq fun j hj => ?_
  obtain rfl : j = 0 := by omega
  simp

/-- A vector is made of its own fields (R47). -/
theorem ofFields_of_fields (w : InputVector) :
    InputVector.ofFields (InputVector.rst w) (InputVector.deqReq w) (InputVector.rxIdle w) (InputVector.rxValid w)
      (InputVector.rxData w) = w := by
  unfold InputVector.ofFields InputVector.rst InputVector.deqReq InputVector.rxIdle InputVector.rxValid
    InputVector.rxData
  simp only [ofBool_getLsbD_eq_extractLsb']
  rw [BitVec.extractLsb'_append_extractLsb'_eq_extractLsb' (by rfl),
    BitVec.extractLsb'_append_extractLsb'_eq_extractLsb' (by rfl),
    BitVec.extractLsb'_append_extractLsb'_eq_extractLsb' (by rfl),
    BitVec.extractLsb'_append_extractLsb'_eq_extractLsb' (by rfl)]
  exact BitVec.extractLsb'_eq_self

/-- A vector under RESET is its highest bit over the eleven others (R85). -/
theorem one_append_belowRst {w : InputVector} (h : InputVector.rst w = true) : 1#1 ++ InputVector.belowRst w = w := by
  have top : 1#1 = w.extractLsb' 11 1 := by
    rw [← ofBool_getLsbD_eq_extractLsb', show w.getLsbD 11 = true from h]
    rfl
  rw [top, InputVector.belowRst, BitVec.extractLsb'_append_extractLsb'_eq_extractLsb' (by rfl)]
  exact BitVec.extractLsb'_eq_self

@[simp] theorem belowRst_append (ign : BitVec 11) : InputVector.belowRst (1#1 ++ ign) = ign :=
  BitVec.extractLsb'_append_eq_right

/-! ### The bytes of a record -/

@[simp] theorem highByte_be16 (hi lo : Byte) : highByte (be16 hi lo) = hi := BitVec.extractLsb'_append_eq_left

@[simp] theorem lowByte_be16 (hi lo : Byte) : lowByte (be16 hi lo) = lo := BitVec.extractLsb'_append_eq_right

/-- A 16-bit field is made of its own two bytes (R55). -/
@[simp] theorem be16_highByte_lowByte (v : Half) : be16 (highByte v) (lowByte v) = v := by
  rw [be16, highByte, lowByte, BitVec.extractLsb'_append_extractLsb'_eq_extractLsb' (by rfl)]
  exact BitVec.extractLsb'_eq_self

/-- The bytes from `k` on are byte `k` and the bytes after it (R44). -/
theorem unusedFrom_eq_cons (rec : Record N) {k : Nat} (hk : k < N + 1) :
    Operand.unusedFrom k rec = rec[k] :: Operand.unusedFrom (k + 1) rec := by
  have inside : k < rec.toList.length := by rwa [Vector.length_toList]
  rw [Operand.unusedFrom, Operand.unusedFrom, List.drop_eq_getElem_cons inside, Vector.getElem_toList]

@[simp] theorem unusedFrom_length (rec : Record N) (k : Nat) : (Operand.unusedFrom k rec).length = N + 1 - k := by
  rw [Operand.unusedFrom, List.length_drop, Vector.length_toList]

/-- A record as opcode and payload (R44). -/
theorem toList_eq_opcode_payload (rec : Record N) : rec.toList = rec[0] :: Operand.unusedFrom 1 rec :=
  unusedFrom_eq_cons rec (Nat.succ_pos N)

section
variable {c : Config} (rec : Record c.N)

/-- A record as the fields of LAUNCH (R53, R55). -/
theorem toList_eq_launch_fields : rec.toList = rec[0] :: Operand.selector c rec :: Operand.unusedFrom 2 rec := by
  rw [toList_eq_opcode_payload, unusedFrom_eq_cons rec (c.index_le_three (by decide))]
  rfl

/-- A record as the fields of the two adjust commands (R53, R55). -/
theorem toList_eq_adjust_fields : rec.toList = rec[0] :: Operand.selector c rec :: highByte (Operand.value16 c rec) ::
    lowByte (Operand.value16 c rec) :: Operand.unusedFrom 4 rec := by
  rw [toList_eq_launch_fields, unusedFrom_eq_cons rec (c.index_le_three (k := 2) (by decide)),
    unusedFrom_eq_cons rec (c.index_le_three (k := 3) (by decide)), Operand.value16, highByte_be16, lowByte_be16]

end

/-! ### Decode after encode -/

/-- A command's payload of the right length has a code: the record of those bytes (R44). -/
theorem exists_record_code {op : Byte} {bs : List Byte} (h : bs.length = N) :
    ∃ rec : Record N, (recordOf N (op :: bs)).map Code.record = some (.record rec) ∧ rec.toList = op :: bs := by
  obtain ⟨rec, e, bytes⟩ := exists_recordOf (N := N) (bs := op :: bs) (by rw [List.length_cons, h])
  exact ⟨rec, by rw [e, Option.map_some], bytes⟩

section
variable {c : Config} {rec : Record c.N}

theorem fields_of_payload {op : Byte} {p : List Byte} (bytes : rec.toList = op :: p) :
    rec[0] = op ∧ Operand.unusedFrom 1 rec = p :=
  List.cons.inj ((toList_eq_opcode_payload rec).symm.trans bytes)

theorem fields_of_launch {op r : Byte} {p : List Byte} (bytes : rec.toList = op :: r :: p) :
    rec[0] = op ∧ Operand.selector c rec = r ∧ Operand.unusedFrom 2 rec = p := by
  simpa using (toList_eq_launch_fields rec).symm.trans bytes

theorem fields_of_adjust {op m : Byte} {v : Half} {p : List Byte}
    (bytes : rec.toList = op :: m :: highByte v :: lowByte v :: p) :
    rec[0] = op ∧ Operand.selector c rec = m ∧ Operand.value16 c rec = v ∧ Operand.unusedFrom 4 rec = p := by
  have fields := (toList_eq_adjust_fields rec).symm.trans bytes
  simp only [List.cons.injEq] at fields
  obtain ⟨opcode, selector, high, low, unused⟩ := fields
  refine ⟨opcode, selector, ?_, unused⟩
  rw [← be16_highByte_lowByte (Operand.value16 c rec), high, low, be16_highByte_lowByte]

end

/-- Every well-formed instruction but ENQUEUE has a code, which decodes to it. -/
theorem exists_code_decode (c : Config) (i : Instr) (valid : c.valid = true) (wf : i.wf c = true)
    (notInternal : i.format ≠ .internal) : ∃ code, encode c i = some code ∧ decode c code = i := by
  cases i with
  | reset ign => exact ⟨_, rfl, by simp [decode, decodeInput]⟩
  | rxbyte dq id b => exact ⟨_, rfl, by simp [decode, decodeInput]⟩
  | idle dq d => exact ⟨_, rfl, by simp [decode, decodeInput]⟩
  | trydequeue d => exact ⟨_, rfl, by simp [decode, decodeInput]⟩
  | nop d => exact ⟨_, rfl, by simp [decode, decodeInput]⟩
  | enqueue rec => exact absurd rfl notInternal
  | halt p =>
    obtain ⟨rec, code, bytes⟩ := exists_record_code (op := c.opcHalt) (beq_iff_eq.1 wf)
    obtain ⟨opcode, payload⟩ := fields_of_payload bytes
    exact ⟨_, code, by rw [decode, decodeRecord_of_opcHalt opcode, payload]⟩
  | adjustSpeed m v p =>
    obtain ⟨rec, code, bytes⟩ :=
      exists_record_code (op := c.opcAdjustSpeed) (Laws.SelectsRow.adjust_payload_length (m := m) (v := v) wf)
    obtain ⟨opcode, selector, value, unused⟩ := fields_of_adjust bytes
    exact ⟨_, code, by rw [decode, decodeRecord_of_opcAdjustSpeed valid opcode, selector, value, unused]⟩
  | adjustAngle sv v p =>
    obtain ⟨rec, code, bytes⟩ :=
      exists_record_code (op := c.opcAdjustAngle) (Laws.SelectsRow.adjust_payload_length (m := sv) (v := v) wf)
    obtain ⟨opcode, selector, value, unused⟩ := fields_of_adjust bytes
    exact ⟨_, code, by rw [decode, decodeRecord_of_opcAdjustAngle valid opcode, selector, value, unused]⟩
  | launch r p =>
    obtain ⟨rec, code, bytes⟩ :=
      exists_record_code (op := c.opcLaunch) (Laws.SelectsRow.launch_payload_length (r := r) wf)
    obtain ⟨opcode, selector, unused⟩ := fields_of_launch bytes
    exact ⟨_, code, by rw [decode, decodeRecord_of_opcLaunch valid opcode, selector, unused]⟩
  | unrecognized op p =>
    obtain ⟨notCommand, length⟩ := Bool.and_eq_true_iff.1 wf
    obtain ⟨rec, code, bytes⟩ := exists_record_code (op := op) (beq_iff_eq.1 length)
    obtain ⟨opcode, payload⟩ := fields_of_payload bytes
    exact ⟨_, code, by rw [decode, decodeRecord_of_unrecognizedOpcode (opcode ▸ notCommand), opcode, payload]⟩

/-- Settles O1: ENQUEUE has no code, and every other row is decoded back from the fields of its code. -/
theorem decodeOfEncodeIsIdentity : Obligations.DecodeOfEncodeIsIdentity := by
  unfold Obligations.DecodeOfEncodeIsIdentity
  refine fun c i valid wf => ⟨fun internal => ?_, exists_code_decode c i valid wf⟩
  cases i with
  | enqueue rec => rfl
  | _ => cases internal

/-! ### Encode after decode -/

/-- The five ways of the decoder on input vectors, with the vector written from the fields kept (R47, R49). -/
theorem encode_decodeInput (c : Config) (w : InputVector) :
    (decodeInput w).wf c = true ∧ encode c (decodeInput w) = some (.input w) := by
  have fields := ofFields_of_fields w
  unfold decodeInput
  split_ifs with rst rxValid rxIdle deqReq
  · exact ⟨rfl, by rw [encode, one_append_belowRst rst]⟩
  · exact ⟨rfl, by simpa [encode, rst, rxValid] using fields⟩
  · exact ⟨rfl, by simpa [encode, rst, rxValid, rxIdle] using fields⟩
  · exact ⟨rfl, by simpa [encode, rst, rxValid, rxIdle, deqReq] using fields⟩
  · exact ⟨rfl, by simpa [encode, rst, rxValid, rxIdle, deqReq] using fields⟩

/-- The five ways of the decoder on records, with the record written from the fields kept (R53, R95). -/
theorem encode_decodeRecord (c : Config) (rec : Record c.N) :
    (decodeRecord c rec).wf c = true ∧ encode c (decodeRecord c rec) = some (.record rec) := by
  have payload := toList_eq_opcode_payload rec
  have adjust := toList_eq_adjust_fields rec
  have launch := toList_eq_launch_fields rec
  unfold decodeRecord
  split_ifs with halt speed angle opLaunch
  · exact ⟨by simp [Instr.wf], by rw [encode, ← halt, ← payload, recordOf_toList, Option.map_some]⟩
  · exact ⟨by simp [Instr.wf], by rw [encode, ← speed, ← adjust, recordOf_toList, Option.map_some]⟩
  · exact ⟨by simp [Instr.wf], by rw [encode, ← angle, ← adjust, recordOf_toList, Option.map_some]⟩
  · exact ⟨by simp [Instr.wf], by rw [encode, ← opLaunch, ← launch, recordOf_toList, Option.map_some]⟩
  · have notCommand := (unrecognizedOpcode_iff c rec[0]).2 ⟨halt, speed, angle, opLaunch⟩
    exact ⟨by simp [Instr.wf, notCommand], by rw [encode, ← payload, recordOf_toList, Option.map_some]⟩

/-- Settles O2: the two formats one by one. -/
theorem encodeOfDecodeIsIdentity : Obligations.EncodeOfDecodeIsIdentity := by
  unfold Obligations.EncodeOfDecodeIsIdentity
  intro c code
  cases code with
  | input w => exact encode_decodeInput c w
  | record rec => exact encode_decodeRecord c rec

/-! ### The words of the table -/

/-- A mask of high bits sees only the high bits of a word. -/
theorem and_shiftLeft_eq (x m n : Nat) : x &&& (m <<< n) = ((x >>> n) &&& m) <<< n := by
  refine Nat.eq_of_testBit_eq fun i => ?_
  simp only [Nat.testBit_and, Nat.testBit_shiftLeft, Nat.testBit_shiftRight]
  rcases Nat.lt_or_ge i n with below | above
  · simp [Nat.not_le.2 below]
  · simp [above, Nat.add_sub_cancel' above]

theorem toNat_append_shiftRight {m n : Nat} (x : BitVec m) (y : BitVec n) : (x ++ y).toNat >>> n = x.toNat := by
  rw [BitVec.toNat_append, Nat.shiftRight_or_distrib, Nat.shiftLeft_shiftRight, Nat.shiftRight_eq_zero _ _ y.isLt,
    Nat.or_zero]

/-- The control bits of a vector under the control bits of a mask (R47). -/
theorem ofFields_and_shiftLeft (rst deqReq rxIdle rxValid : Bool) (d : Byte) (m : Nat) :
    (InputVector.ofFields rst deqReq rxIdle rxValid d).toNat &&& (m <<< 8) =
      ((8 * rst.toNat + 4 * deqReq.toNat + 2 * rxIdle.toNat + rxValid.toNat) &&& m) <<< 8 := by
  have control : (BitVec.ofBool rst ++ BitVec.ofBool deqReq ++ BitVec.ofBool rxIdle ++ BitVec.ofBool rxValid).toNat =
      8 * rst.toNat + 4 * deqReq.toNat + 2 * rxIdle.toNat + rxValid.toNat := by decide +revert
  rw [and_shiftLeft_eq, InputVector.ofFields, toNat_append_shiftRight, control]

/-- The opcode byte of a packed record is at bits 47 to 40, under the mask of every command (R33, R53). -/
theorem pack_and_opcode_mask (rec : Record thisHardware.N) :
    (pack rec).toNat &&& 0xFF0000000000 = rec[0].toNat <<< 40 := by
  have slice := congrArg BitVec.toNat (pack_extractLsb' rec (k := 0) (by decide))
  rw [BitVec.extractLsb'_toNat] at slice
  rw [show 0xFF0000000000 = (2 ^ 8 - 1) <<< 40 from rfl, and_shiftLeft_eq, Nat.and_two_pow_sub_one_eq_mod]
  exact congrArg (· <<< 40) slice

/-- The word of a command has the opcode of its row under the row's mask. -/
theorem record_tableWord_and_mask {op : Byte} {bs : List Byte} {code : Code thisHardware.N}
    (h : (recordOf thisHardware.N (op :: bs)).map Code.record = some code) :
    code.tableWord.2 &&& 0xFF0000000000 = op.toNat <<< 40 := by
  obtain ⟨rec, ofBytes, rfl⟩ := Option.map_eq_some_iff.1 h
  rw [← recordOf_head ofBytes]
  exact pack_and_opcode_mask rec

/-- Settles O3: the control bits or the opcode byte of the code, under a mask that is a shifted constant. -/
theorem encodedWordMatchesItsTableRow : Obligations.EncodedWordMatchesItsTableRow := by
  unfold Obligations.EncodedWordMatchesItsTableRow
  intro i code encoded
  cases i with
  | reset ign =>
    cases encoded
    exact (and_shiftLeft_eq (1#1 ++ ign).toNat 1 11).trans (by rw [toNat_append_shiftRight]; rfl)
  | rxbyte dq id b =>
    cases encoded
    exact (ofFields_and_shiftLeft _ _ _ _ b 9).trans (by decide +revert)
  | idle dq d =>
    cases encoded
    exact (ofFields_and_shiftLeft _ _ _ _ d 0xA).trans (by decide +revert)
  | trydequeue d =>
    cases encoded
    exact (ofFields_and_shiftLeft _ _ _ _ d 0xC).trans rfl
  | nop d =>
    cases encoded
    exact (ofFields_and_shiftLeft _ _ _ _ d 0xF).trans rfl
  | enqueue rec => cases encoded
  | halt p => exact (record_tableWord_and_mask encoded).trans rfl
  | adjustSpeed m v p => exact (record_tableWord_and_mask encoded).trans rfl
  | adjustAngle sv v p => exact (record_tableWord_and_mask encoded).trans rfl
  | launch r p => exact (record_tableWord_and_mask encoded).trans rfl
  | unrecognized op p => exact Nat.and_zero _

/-! ### Numbers decoded -/

/-- A number of 12 or 16 bits that fits the input ports decodes as a vector, and no other such number decodes (R47). -/
theorem decodeTableWord_of_vector_width {nbits w : Nat} (width : nbits = 12 ∨ nbits = 16) (i : Instr) :
    decodeTableWord nbits w = some i ↔ w < 2 ^ 12 ∧ decodeInput (BitVec.ofNat 12 w) = i := by
  rw [decodeTableWord, decodeWord, if_pos width, decodeInputNumber]
  by_cases fits : w < 2 ^ 12
  · rw [if_pos fits]
    exact ⟨fun decoded => ⟨fits, Option.some_inj.1 decoded⟩, fun ⟨_, decoded⟩ => congrArg some decoded⟩
  · rw [if_neg fits]
    exact ⟨nofun, fun ⟨below, _⟩ => absurd below fits⟩

/-- A number of 48 bits that fits the record decodes as a packed record, and no other such number decodes (R33). -/
theorem decodeTableWord_of_record_width (w : Nat) (i : Instr) :
    decodeTableWord thisHardware.RECW w = some i ↔
      w < 2 ^ thisHardware.RECW ∧ decodeRecord thisHardware (unpack (BitVec.ofNat thisHardware.RECW w)) = i := by
  have notVector : ¬ (thisHardware.RECW = 12 ∨ thisHardware.RECW = 16) := by decide
  rw [decodeTableWord, decodeWord, if_neg notVector, if_pos rfl]
  by_cases fits : w < 2 ^ thisHardware.RECW
  · simp [fits, decodeRecordBytes]
  · simp [fits]

/-- A number of any other width does not decode. -/
theorem decodeTableWord_of_other_width {nbits w : Nat} (notVector : ¬ (nbits = 12 ∨ nbits = 16))
    (notRecord : nbits ≠ thisHardware.RECW) : decodeTableWord nbits w = none := by
  rw [decodeTableWord, decodeWord, if_neg notVector, if_neg notRecord]

/-- The table's number of a code decodes as the code (log 17). -/
theorem decodeTableWord_tableWord (code : Code thisHardware.N) :
    decodeTableWord code.tableWord.1 code.tableWord.2 = some (decode thisHardware code) := by
  cases code with
  | input w =>
    refine (decodeTableWord_of_vector_width (.inl rfl) _).2 ⟨w.isLt, ?_⟩
    rw [Code.tableWord, BitVec.ofNat_toNat, BitVec.setWidth_eq]
    rfl
  | record rec =>
    refine (decodeTableWord_of_record_width _ _).2 ⟨(pack rec).isLt, ?_⟩
    rw [Code.tableWord, BitVec.ofNat_toNat, BitVec.setWidth_eq, unpack_pack]
    rfl

/-- Settles O4: the number decodes as the code, and the code as the instruction. -/
theorem tableWordDecodesToItsInstruction : Obligations.TableWordDecodesToItsInstruction := by
  unfold Obligations.TableWordDecodesToItsInstruction
  intro i code wf encoded
  have notInternal : i.format ≠ .internal := by
    rintro internal
    rw [(decodeOfEncodeIsIdentity thisHardware i thisHardware_valid wf).1 internal] at encoded
    cases encoded
  obtain ⟨code', encoded', decoded⟩ := exists_code_decode thisHardware i thisHardware_valid wf notInternal
  obtain rfl := Option.some_inj.1 (encoded.symm.trans encoded')
  rw [decodeTableWord_tableWord, decoded]

/-- Settles O5: each word by evaluation of the decoder. -/
theorem specWordsDecodeAsListed : Obligations.SpecWordsDecodeAsListed := by
  unfold Obligations.SpecWordsDecodeAsListed
  decide

end Sys2Proof.Machine
end

section
/-!
The machine's step (log 2, log 12): what a step fetches and runs, what an input vector and a held record do to the
whole state, and runs of the machine on an input sequence (43_dispatcher_context.md).
-/

namespace Sys2Proof.Machine
open Sys2Proof.Config (thisHardware)

/-! ### What a step runs -/

/-- A step with a record in the consumer's hands dispatches it (R94; log 12). -/
theorem step_of_holding {s : State} {rec : Record thisHardware.N} (h : s.consumer = .holding rec) :
    step s = exec (decodeRecord thisHardware rec) (s.setConsumer .polling) := by
  rcases s.fetch_cases with ⟨rec', holding, fetch, take⟩ | ⟨free, _⟩
  · cases h.symm.trans holding
    rw [step, fetch, take]
    rfl
  · exact absurd h (free rec)

/-- A step with free hands runs the next input vector (R87; log 2). -/
theorem step_of_handsFree {s : State} (h : s.handsFree) :
    step s = exec (decodeInput s.nextVector) (s.setInputs s.inputs.tail) := by
  rcases s.fetch_cases with ⟨rec, holding, _⟩ | ⟨_, fetch, take⟩
  · exact absurd holding (h rec)
  · rw [step, fetch, take]
    rfl

theorem step_of_inputs_cons {s : State} {w : InputVector} {ws : List InputVector} (h : s.handsFree)
    (inputs : s.inputs = w :: ws) : step s = exec (decodeInput w) (s.setInputs ws) := by
  rw [step_of_handsFree h, State.nextVector, inputs]
  rfl

/-- With no input left the cycle sees `0x000`, and there is nothing to take from the list (R86; log 2). -/
theorem step_of_inputs_nil {s : State} (h : s.handsFree) (inputs : s.inputs = []) :
    step s = exec (decodeInput 0x000) s := by
  have untouched : s.setInputs [] = s := by
    rw [← inputs]
    rfl
  rw [step_of_handsFree h, State.nextVector, inputs]
  exact congrArg (exec (decodeInput 0x000)) untouched

/-- Settles O8: the two things a step can fetch, with the list of inputs empty or not. -/
theorem stepRunsDecodedInstruction : Obligations.StepRunsDecodedInstruction := by
  unfold Obligations.StepRunsDecodedInstruction
  exact ⟨fun _ _ => step_of_holding, fun _ _ _ => step_of_inputs_cons, fun _ => step_of_inputs_nil⟩

/-! ### What is placed from outside -/

theorem State.handsFree_of_polling {s : State} (h : s.consumer = .polling) : s.handsFree := by
  intro rec holding
  cases h.symm.trans holding

/-- Placing a vector puts it first in the list and leaves the consumer's hands free, and nothing else changes (log
17). -/
theorem State.placeInput_spec (s : State) (w : InputVector) : (s.placeInput w).handsFree ∧
    (s.placeInput w).inputs = w :: s.inputs ∧ (s.placeInput w).block = s.block ∧ (s.placeInput w).deqOut = s.deqOut ∧
    (s.placeInput w).calls = s.calls ∧ (s.placeInput w).draws = s.draws := by
  unfold State.placeInput State.handsFree
  cases consumer : s.consumer <;> simp [consumer]

theorem State.withFetchWord_of_vector_width (s : State) {nbits w : Nat} (width : nbits = 12 ∨ nbits = 16)
    (fits : w < 2 ^ 12) : s.withFetchWord nbits w = s.placeInput (BitVec.ofNat 12 w) := by
  rw [State.withFetchWord, State.placeTableWord, if_pos width, if_pos fits]

theorem State.withFetchWord_of_record_width (s : State) {w : Nat} (fits : w < 2 ^ thisHardware.RECW) :
    s.withFetchWord thisHardware.RECW w =
      s.setConsumer (.holding (unpack (BitVec.ofNat thisHardware.RECW w))) := by
  have notVector : ¬ (thisHardware.RECW = 12 ∨ thisHardware.RECW = 16) := by decide
  rw [State.withFetchWord, State.placeTableWord, if_neg notVector, if_pos rfl, if_pos fits]

/-- Settles O9: a vector is placed first in the list and a record in the hands, where the step finds it. -/
theorem placedTableWordIsRunNext : Obligations.PlacedTableWordIsRunNext := by
  unfold Obligations.PlacedTableWordIsRunNext
  intro s nbits w i decoded
  by_cases vector : nbits = 12 ∨ nbits = 16
  · obtain ⟨fits, rfl⟩ := (decodeTableWord_of_vector_width vector i).1 decoded
    obtain ⟨free, inputs, block, port, calls, draws⟩ := s.placeInput_spec (BitVec.ofNat 12 w)
    rw [s.withFetchWord_of_vector_width vector fits]
    exact ⟨_, step_of_inputs_cons free inputs, free, block, port, rfl, calls, draws⟩
  · by_cases record : nbits = thisHardware.RECW
    · subst record
      obtain ⟨fits, rfl⟩ := (decodeTableWord_of_record_width w i).1 decoded
      rw [s.withFetchWord_of_record_width fits]
      exact ⟨_, step_of_holding rfl, State.handsFree_of_polling rfl, rfl, rfl, rfl, rfl, rfl⟩
    · rw [decodeTableWord_of_other_width vector record] at decoded
      cases decoded

/-! ### One input vector -/

/-- Settles O12: the reset cycle moves no consumer, and a running cycle moves it on a request. -/
theorem execOfVectorIsBlockCycle : Obligations.ExecOfVectorIsBlockCycle := by
  unfold Obligations.ExecOfVectorIsBlockCycle
  intro w s
  obtain ⟨t, executed, block, port, inputs, calls⟩ := exec_decodeInput_spec w s
  refine ⟨t, executed, block, port, ?_, inputs, calls⟩
  rw [exec_decodeInput] at executed
  cases executed
  cases running : InputVector.rst w with
  | true => simp
  | false => simp [s.block.outputOn_of_running running]

/-- Two vectors that agree in the four control bits agree in each of them (R47). -/
theorem getLsbD_eq_of_control_eq {w w' : InputVector} (h : w.extractLsb' 8 4 = w'.extractLsb' 8 4) {i : Nat}
    (hi : i < 4) :    w.getLsbD (8 + i) = w'.getLsbD (8 + i) := by
  have bit := congrArg (fun x => x.getLsbD i) h
  simpa [BitVec.getLsbD_extractLsb', hi] using bit

/-- Settles O14: execution reads of a vector the `rst` bit, and without it the control bits and the byte if it is
valid. -/
theorem ignoredBitsHaveNoEffect : Obligations.IgnoredBitsHaveNoEffect := by
  unfold Obligations.IgnoredBitsHaveNoEffect
  constructor
  · intro w w' s rst rst'
    rw [exec_decodeInput, exec_decodeInput, if_pos rst, if_pos rst']
  · intro w w' s noByte control
    have bit {i : Nat} (hi : i < 4) := getLsbD_eq_of_control_eq control hi
    have rst : InputVector.rst w = InputVector.rst w' := bit (i := 3) (by decide)
    have deqReq : InputVector.deqReq w = InputVector.deqReq w' := bit (i := 2) (by decide)
    have rxIdle : InputVector.rxIdle w = InputVector.rxIdle w' := bit (i := 1) (by decide)
    have rxValid : InputVector.rxValid w = InputVector.rxValid w' := bit (i := 0) (by decide)
    have byte : InputVector.byte? w = InputVector.byte? w' := by
      rw [InputVector.byte?, InputVector.byte?, ← rxValid, noByte]
      rfl
    rw [exec_decodeInput, exec_decodeInput, rst, deqReq, rxIdle, byte]

/-- Settles O17: NOP is a cycle with nothing selected. -/
theorem nopLeavesTheMachineUnchanged : Obligations.NopLeavesTheMachineUnchanged := by
  unfold Obligations.NopLeavesTheMachineUnchanged
  exact fun ignored s => ⟨_, exec_nop ignored s, Block.cycle_nop thisHardware s.block, rfl, rfl, rfl, rfl⟩

/-! ### One record -/

/-- HALT issues two calls (R96). -/
theorem haltCalls_length (c : Config) (swap : Bool) : (haltCalls c swap).length = 2 := by
  cases swap <;> rfl

/-- Settles O48: each command appends its calls, two for HALT, and touches nothing of the block, the port and the
inputs. -/
theorem commandsLeaveTheBlockAlone : Obligations.CommandsLeaveTheBlockAlone := by
  unfold Obligations.CommandsLeaveTheBlockAlone
  intro i s format
  cases i with
  | halt p => exact ⟨_, exec_halt p s, rfl, rfl, rfl, _, rfl, (haltCalls_length _ _).le⟩
  | adjustSpeed m v p => exact ⟨_, exec_adjustSpeed m v p s, rfl, rfl, rfl, _, rfl, Nat.le_succ 1⟩
  | adjustAngle sv v p => exact ⟨_, exec_adjustAngle sv v p s, rfl, rfl, rfl, _, rfl, Nat.le_succ 1⟩
  | launch r p => exact ⟨_, exec_launch r p s, rfl, rfl, rfl, _, rfl, Nat.le_succ 1⟩
  | unrecognized op p =>
    exact ⟨_, exec_unrecognized op p s, rfl, rfl, rfl, [], (List.append_nil _).symm, Nat.zero_le 2⟩
  | reset _ => cases format
  | rxbyte _ _ _ => cases format
  | idle _ _ => cases format
  | trydequeue _ => cases format
  | nop _ => cases format
  | enqueue _ => cases format

/-- A command leaves the consumer as it was or inside the fire sequence, never with a record (R93, R103). -/
theorem exec_decodeRecord_handsFree {rec : Record thisHardware.N} {s t : State} (free : s.handsFree)
    (executed : exec (decodeRecord thisHardware rec) s = .next t) : t.handsFree := by
  rcases decodeRecord_possibleCalls_cases thisHardware rec with
    ⟨command, _⟩ | ⟨command, _⟩ | ⟨command, _⟩ | ⟨command, _⟩ | ⟨command, _⟩ <;>
    rw [command] at executed <;> cases executed
  case inl => exact free
  case inr.inl => exact free
  case inr.inr.inl => exact free
  case inr.inr.inr.inl => exact fun _ => nofun
  case inr.inr.inr.inr => exact free

/-- Settles O50: the step dispatches the record, whose calls its opcode byte selects, from free hands. -/
theorem heldRecordIsDispatchedByTheNextStep : Obligations.HeldRecordIsDispatchedByTheNextStep := by
  unfold Obligations.HeldRecordIsDispatchedByTheNextStep
  intro s rec holding
  obtain ⟨t, cs, executed, selected, calls, block, port, inputs⟩ :=
    exec_decodeRecord_spec rec (s.setConsumer .polling)
  have free := exec_decodeRecord_handsFree (State.handsFree_of_polling rfl) executed
  exact ⟨t, cs, (step_of_holding holding).trans executed, selected, calls, free, block, port, inputs⟩

/-! ### Runs of the machine -/

/-- A run whose first step answers a next state goes on from there. -/
theorem coreRun_succ (M : Host.Core) {s t : M.State} (n : Nat) (h : M.step s = .next t) :
    M.run (n + 1) s = M.run n t := by
  rw [Host.Core.run, h]

theorem run_succ {s t : State} (n : Nat) (h : step s = .next t) :
    Host.Core.run Sys2Proof.core (n + 1) s = Host.Core.run Sys2Proof.core n t :=
  coreRun_succ Sys2Proof.core n h

/-- A record is returned only in a running cycle with a request (R92). -/
theorem Block.request_of_outputOn {N CW : Nat} {w : InputVector} {s : Block N CW} {rec : Record N}
    (h : s.outputOn w = some rec) : InputVector.rst w = false ∧ InputVector.deqReq w = true := by
  rw [Block.outputOn_eq_ite] at h
  split at h
  case isTrue request =>
    obtain ⟨running, deqReq, -⟩ := request
    exact ⟨running, deqReq⟩
  case isFalse => cases h

/-- The step on a pending vector is the block's cycle, and leaves in the consumer's hands the record returned. -/
theorem step_of_inputs_cons_spec {s : State} {w : InputVector} {ws : List InputVector} (free : s.handsFree)
    (inputs : s.inputs = w :: ws) : ∃ t : State, step s = .next t ∧ t.block = s.block.onVector thisHardware w ∧
      t.inputs = ws ∧ t.calls = s.calls ∧
      (s.block.outputOn w = none → t.handsFree) ∧
      (∀ rec, s.block.outputOn w = some rec → t.consumer = .holding rec) := by
  obtain ⟨t, executed, block, -, consumer, left, calls⟩ := execOfVectorIsBlockCycle w (s.setInputs ws)
  refine ⟨t, (step_of_inputs_cons free inputs).trans executed, block, left, calls, fun nothing => ?_,
    fun rec returned => ?_⟩
  · rw [State.setInputs_block, nothing] at consumer
    split at consumer
    · exact State.handsFree_of_polling consumer
    · exact fun rec => consumer ▸ free rec
  · rw [State.setInputs_block, returned] at consumer
    rw [consumer, if_pos (Block.request_of_outputOn returned), consumerAfter]

/-- A run from free hands takes one step for each pending vector and one more when it returned a record (R94; log 12).
-/
theorem run_of_inputs (ws : List InputVector) (s : State) (free : s.handsFree) (inputs : s.inputs = ws) :
    ∃ (t : State) (css : List (List Call)),
      Host.Core.run Sys2Proof.core (ws.length + (Block.outputs thisHardware ws s.block).length) s = .next t ∧
      t.inputs = [] ∧ t.handsFree ∧ t.block = Block.run thisHardware ws s.block ∧ t.calls = s.calls ++ css.flatten ∧
      List.Forall₂ (fun rec cs => cs ∈ possibleCalls thisHardware rec) (Block.outputs thisHardware ws s.block) css := by
  induction ws generalizing s with
  | nil => exact ⟨s, [], rfl, inputs, free, rfl, (List.append_nil _).symm, .nil⟩
  | cons w ws ih =>
    obtain ⟨t, cycle, block, left, calls, silent, returns⟩ := step_of_inputs_cons_spec free inputs
    rw [Block.outputs, Block.run, ← block]
    cases output : s.block.outputOn w with
    | none =>
      obtain ⟨u, css, run, used, freeAfter, blockAfter, callsAfter, dispatched⟩ := ih t (silent output) left
      refine ⟨u, css, ?_, used, freeAfter, blockAfter, calls ▸ callsAfter, dispatched⟩
      rw [Option.toList_none, List.nil_append, List.length_cons, Nat.add_right_comm, run_succ _ cycle]
      exact run
    | some rec =>
      obtain ⟨v, cs, dispatch, selected, issued, handsFree, blockSame, -, inputsSame⟩ :=
        heldRecordIsDispatchedByTheNextStep t rec (returns rec output)
      obtain ⟨u, css, run, used, freeAfter, blockAfter, callsAfter, dispatched⟩ :=
        ih v handsFree (inputsSame.trans left)
      rw [blockSame] at run blockAfter dispatched
      refine ⟨u, cs :: css, ?_, used, freeAfter, blockAfter, ?_, .cons selected dispatched⟩
      · rw [Option.toList_some, List.singleton_append, List.length_cons, List.length_cons, Nat.add_right_comm,
          ← Nat.add_assoc, run_succ _ cycle, run_succ _ dispatch]
        exact run
      · rw [callsAfter, issued, calls, List.append_assoc, List.flatten_cons]

/-- Settles O51: the run on all the inputs that are pending. -/
theorem recordsAreDispatchedInOrderEachOnce : Obligations.RecordsAreDispatchedInOrderEachOnce := by
  unfold Obligations.RecordsAreDispatchedInOrderEachOnce
  exact fun s free => run_of_inputs s.inputs s free rfl

/-- Over cycles with neither a request nor RESET the consumer stays in the call (R103; log 13). -/
theorem run_of_firing (reps : Byte) (ws : List InputVector) (s : State) (firing : s.consumer = .firing reps)
    (inputs : s.inputs = ws) (running : noReset ws = true)
    (noRequest : (ws.all fun w => !(InputVector.deqReq w)) = true) :
    ∃ u : State, Host.Core.run Sys2Proof.core ws.length s = .next u ∧ u.consumer = .firing reps ∧
      u.block.rd = s.block.rd ∧ u.calls = s.calls ∧ u.block = Block.run thisHardware ws s.block := by
  induction ws generalizing s with
  | nil => exact ⟨s, rfl, firing, rfl, rfl, rfl⟩
  | cons w ws ih =>
    obtain ⟨noRst, running⟩ := Bool.and_eq_true_iff.1 running
    obtain ⟨noDeqReq, noRequest⟩ := Bool.and_eq_true_iff.1 noRequest
    have noRst : InputVector.rst w = false := by simpa using noRst
    have noDeqReq : InputVector.deqReq w = false := by simpa using noDeqReq
    have free : s.handsFree := fun rec holding => by cases firing.symm.trans holding
    obtain ⟨t, executed, block, -, consumer, left, calls⟩ := execOfVectorIsBlockCycle w (s.setInputs ws)
    rw [noDeqReq, if_neg (by simp)] at consumer
    have rd : t.block.rd = s.block.rd := by
      rw [block, State.setInputs_block, Block.onVector_of_running thisHardware s.block noRst, noDeqReq]
      rfl
    obtain ⟨u, run, inCall, rdAfter, callsAfter, blockAfter⟩ := ih t (consumer.trans firing) left running noRequest
    refine ⟨u, ?_, inCall, rdAfter.trans rd, callsAfter.trans calls, ?_⟩
    · rw [List.length_cons, run_succ _ ((step_of_inputs_cons free inputs).trans executed)]
      exact run
    · rw [blockAfter, block]
      rfl

/-- Settles O52: LAUNCH leaves the consumer in the call, and the run keeps it there. -/
theorem fireSequenceSuspendsDequeuing : Obligations.FireSequenceSuspendsDequeuing := by
  unfold Obligations.FireSequenceSuspendsDequeuing
  intro reps ignored s running noRequest
  obtain ⟨u, run, inCall, rd, calls, block⟩ := run_of_firing reps s.inputs
    ((s.issue [.runFireSequence reps]).setConsumer (.firing reps)) rfl rfl running noRequest
  exact ⟨_, u, exec_launch reps ignored s, rfl, run, inCall, rd, calls, block⟩

end Sys2Proof.Machine
end

section
/-!
The invariants of every step: the memory's canonical form and whole slots (20_memory.md), and the consumer's hands
against the output port (30_encoding.md section 2).
-/

namespace Sys2Proof.Machine
open Sys2Proof.Config (thisHardware)

/-! ### What an instruction does to the memory -/

/-- A cycle that hands no record to ENQUEUE leaves the memory as it was, and one that does performs its store (R69,
R87). -/
theorem Block.cycle_some_qMem_cases (c : Config) (deqReq rxIdle : Bool) (b : Byte) (s : Block c.N c.CW) :
    (s.cycle c deqReq rxIdle (some b)).qMem = s.qMem ∨
    ∃ rec, s.handedOver b = some rec ∧
      (s.cycle c deqReq rxIdle (some b)).qMem = Memory.writeSlot s.qMem s.wr rec := by
  have mem : (s.cycle c deqReq rxIdle (some b)).qMem =
      if s.completing && !s.full then Memory.writeSlot s.qMem s.wr (s.bufWith b) else s.qMem :=
    Block.producerSide_qMem c s b rxIdle true
  rw [mem]
  cases completing : s.completing with
  | false => exact .inl rfl
  | true =>
    cases s.full with
    | true => exact .inl rfl
    | false => exact .inr ⟨_, if_pos completing, rfl⟩

/-- Everything an instruction can do to the memory: nothing, or the store of a whole record in slot `wr` by an
ENQUEUE, on its own or within RXBYTE (R69, R82). -/
theorem exec_qMem_cases {i : Instr} {s t : State} (h : exec i s = .next t) :
    t.block.qMem = s.block.qMem ∨
    ∃ rec : Record thisHardware.N, (i = .enqueue rec ∨ enqueueWithin s i = some (.enqueue rec)) ∧
      t.block.qMem = Memory.writeSlot s.block.qMem s.block.wr rec := by
  rcases exec_block_cases h with
    ⟨_, _, e⟩ | ⟨rec, isEnqueue, e⟩ | ⟨deqReq, rxIdle, b, isRxbyte, e⟩ | ⟨deqReq, rxIdle, e⟩ | e <;> rw [e]
  · exact .inl rfl
  · rw [Block.enqueue_qMem]
    cases s.block.full with
    | true => exact .inl rfl
    | false => exact .inr ⟨rec, .inl isEnqueue, rfl⟩
  · rcases s.block.cycle_some_qMem_cases thisHardware deqReq rxIdle b with unchanged | ⟨rec, handed, stored⟩
    · exact .inl unchanged
    · refine .inr ⟨rec, .inr ?_, stored⟩
      rw [isRxbyte, enqueueWithin, handed, Option.map_some]
  · cases rxIdle <;> exact .inl rfl
  · exact .inl rfl

/-- Settles O28: a store is of a whole record in slot `wr`, and only an ENQUEUE stores. -/
theorem storesTouchOnlyTheSlotAtWr : Obligations.StoresTouchOnlyTheSlotAtWr := by
  unfold Obligations.StoresTouchOnlyTheSlotAtWr
  intro i s
  obtain ⟨t, executed⟩ := exec_completes i s
  refine ⟨t, executed, ?_⟩
  rcases exec_qMem_cases executed with unchanged | ⟨rec, byEnqueue, stored⟩
  · exact ⟨fun a _ => by rw [unchanged], fun _ _ => unchanged⟩
  · refine ⟨fun a outside => by rw [stored, Memory.read_writeSlot_outside _ _ _ outside],
      fun notEnqueue notWithin => ?_⟩
    rcases byEnqueue with isEnqueue | within
    · exact absurd isEnqueue (notEnqueue rec)
    · cases within.symm.trans notWithin

/-! ### What a step keeps of the memory -/

/-- A step stores at most one whole record. -/
theorem step_qMem_cases {s t : State} (h : step s = .next t) :
    t.block.qMem = s.block.qMem ∨
    ∃ (slot : BitVec thisHardware.CW) (rec : Record thisHardware.N),
      t.block.qMem = Memory.writeSlot s.block.qMem slot rec := by
  rcases exec_qMem_cases h with unchanged | ⟨rec, _, stored⟩
  · exact .inl (unchanged.trans (congrArg Block.qMem s.take_block))
  · exact .inr ⟨s.take.block.wr, rec, by rw [stored, State.take_block]⟩

/-- Settles O53: a record's store keeps the canonical form. -/
theorem everyStepKeepsMemoryCanonical : Obligations.EveryStepKeepsMemoryCanonical := by
  unfold Obligations.EveryStepKeepsMemoryCanonical
  intro s t canonical stepped
  rw [State.wf] at canonical ⊢
  rcases step_qMem_cases stepped with unchanged | ⟨slot, rec, stored⟩
  · rwa [unchanged]
  · rw [stored]
    exact Memory.wf_writeSlot slot rec canonical

/-- Settles O55: a record's store writes its slot as a whole and no other. -/
theorem everyStepKeepsSlotsWhole : Obligations.EveryStepKeepsSlotsWhole := by
  unfold Obligations.EveryStepKeepsSlotsWhole
  intro s t whole stepped
  rcases step_qMem_cases stepped with unchanged | ⟨slot, rec, stored⟩
  · rwa [unchanged]
  · rw [stored]
    exact Memory.wholeSlots_writeSlot slot rec whole

/-- Settles O54: nothing is written at power-on, and the consumer polls. -/
theorem powerOnStateMeetsInvariants : Obligations.PowerOnStateMeetsInvariants := by
  unfold Obligations.PowerOnStateMeetsInvariants
  have free : State.reset.handsFree := State.handsFree_of_polling State.reset_consumer
  exact ⟨Memory.wf_nil, Memory.wholeSlots_nil, fun rec holding => absurd holding (free rec), free⟩

/-! ### What a step keeps of the consumer's hands -/

/-- Free hands hold nothing that could differ from the port. -/
theorem State.handsMatchPort_of_handsFree {s : State} (free : s.handsFree) : s.handsMatchPort :=
  fun rec holding => absurd holding (free rec)

/-- After a request the hands hold exactly the record returned (R94). -/
theorem consumerAfter_eq_holding_iff (result : Option (Record thisHardware.N)) (rec : Record thisHardware.N) :
    consumerAfter result = .holding rec ↔ result = some rec := by
  cases result <;> simp [consumerAfter]

/-- Settles O56: a dispatch empties the hands, and a cycle fills them from the result that it drives the port with. -/
theorem everyStepKeepsHandsMatchingPort : Obligations.EveryStepKeepsHandsMatchingPort := by
  unfold Obligations.EveryStepKeepsHandsMatchingPort
  intro s t _ stepped
  rcases s.fetch_cases with ⟨rec, holding, _⟩ | ⟨free, _⟩
  · rw [step_of_holding holding] at stepped
    exact State.handsMatchPort_of_handsFree (exec_decodeRecord_handsFree (State.handsFree_of_polling rfl) stepped)
  · rw [step_of_handsFree free] at stepped
    obtain ⟨u, executed, -, port, consumer, -⟩ := execOfVectorIsBlockCycle s.nextVector (s.setInputs s.inputs.tail)
    cases stepped.symm.trans executed
    intro rec holding
    rw [consumer] at holding
    split at holding
    · rw [port, (consumerAfter_eq_holding_iff _ rec).1 holding, Option.map_some]
    · exact absurd holding (free rec)

end Sys2Proof.Machine
end
